-- ==== Sys2Proof/Word.lean ====
section
/-! DEFINITION. The word types of the block: 00_scope.md rule R5 gives their widths. -/

namespace Sys2Proof

/-- An 8-bit word: a μ-law code word, a payload byte, a byte of a frame (R5 `ULAW_W`). -/
abbrev Byte := BitVec 8

/-- A 16-bit word: a linear sample, a SEG_END entry, a 16-bit header field (R5 `PCM_W`, `SEG_W`). -/
abbrev Half := BitVec 16

/-- A 32-bit word: the payload length, the sample rate (R5 `LEN_W`). -/
abbrev Word := BitVec 32

end Sys2Proof
end

