-- ==== Sys2Proof/Config.lean ====
section
/-! DEFINITION. The parameters of 00_scope.md R5 and the constants of 30_encoding.md R79, and the two open values. -/

namespace Sys2Proof.Config

/-- `BIAS`: additive bias of both codec directions (R5). -/
abbrev bias : Nat := 0x84
/-- `SIGN_BIT`: mask of the sign field of the inverted code word (R5). -/
abbrev signBit : Nat := 0x80
/-- `SEG_MASK`: mask of the segment field (R5). -/
abbrev segMask : Nat := 0x70
/-- `SEG_SHIFT`: right shift that aligns the segment field (R5). -/
abbrev segShift : Nat := 4
/-- `QUANT_MASK`: mask of the 4-bit quantization field (R5). -/
abbrev quantMask : Nat := 0x0F
/-- The quantization pre-shift (R79). -/
abbrev quantShift : Nat := 3
/-- The mask for a negative sample (R79). -/
abbrev negMask : Byte := 0x7F
/-- The mask for a non-negative sample (R79). -/
abbrev posMask : Byte := 0xFF
/-- The maximum-magnitude code before masking (R79). -/
abbrev maxCode : Byte := 0x7F
/-- `LUT_N`: entries of the decode table (R5). -/
abbrev lutSize : Nat := 256
/-- `HDR_LEN`: bytes of the WAV header (R5). -/
abbrev hdrLen : Nat := 44
/-- `FMT_SIZE`: the subchunk size constant (R5). -/
abbrev fmtSize : Nat := 16
/-- `FMT_TAG`: format tag 1, PCM (R5). -/
abbrev fmtTag : Nat := 1
/-- The largest payload length that gives a frame (60_exceptions.md R190). -/
abbrev lenMax : Nat := 0xFFFFFFD3

/-- FREE VALUE. `NARROW8` of 40_decode.md R104, the OPEN function from a 16-bit decoded sample to the 8-bit sample of
DEC8: both sides are held as their two's-complement words. It has no body, so a statement about it holds for every
instantiation. SAFE. Log 5. -/
opaque narrow8 : Half → Byte

/-- FREE VALUE. What the header byte function would show at an index beyond 43. R50 says no such index can be formed;
only a state that no run reaches asks for one. SAFE. Log 6. -/
opaque hdrOutside : Nat → Byte

end Sys2Proof.Config
end

