-- ==== Sys2Proof/Syntax.lean ====
section
/-! DEFINITION. The four operations of the block and the beat words that select them: 00_scope.md R2,
30_encoding.md R75 to R81, opcode_table.json. -/

namespace Sys2Proof

/-- The operations of 00_scope.md R2, one constructor per row of opcode_table.json, with the operand fields of
30_encoding.md R75 to R77. -/
inductive Instr where
  /-- DEC16: μ-law byte `u` to a 16-bit linear sample (R106). -/
  | dec16 (u : Byte)
  /-- DEC8: μ-law byte `u` to an 8-bit linear sample (R107). -/
  | dec8 (u : Byte)
  /-- ENC: signed 16-bit linear sample `s` to a μ-law byte (R125). -/
  | enc (s : Half)
  /-- WRAP: a WAV frame of 44 header bytes and `len` payload bytes (R140). -/
  | wrap (le : Bool) (bits channels : Half) (rate len : Word)
deriving DecidableEq, Repr

/-- The seven ports of 43_buffer_forms_and_handshake.md R171. -/
inductive Port where
  | decIn
  | decOut
  | encIn
  | encOut
  | wavCmd
  | wavIn
  | wavOut
deriving DecidableEq, Repr

/-- Bits per beat of each port (20_memory.md R54). -/
def Port.width : Port → Nat
  | .decIn => 9
  | .decOut => 17
  | .encIn => 16
  | .encOut => 8
  | .wavCmd => 97
  | .wavIn => 8
  | .wavOut => 9

/-- The ports on which a beat starts an operation (30_encoding.md R80); payload bytes are data of the WRAP in
progress. -/
def Port.startsOperation : Port → Bool
  | .decIn | .encIn | .wavCmd => true
  | .decOut | .encOut | .wavIn | .wavOut => false

/-- A beat written down as a number, with the port it stands on: the port, and on DEC one bit of the word, select
the operation (R80). -/
structure RawBeat where
  port : Port
  word : Nat
deriving DecidableEq, Repr

end Sys2Proof
end

