-- ==== Sys2Proof/WellFormed.lean ====
section
/-! DEFINITION. Which written-down beats and which instructions are well formed: 30_encoding.md R80, R81. -/

namespace Sys2Proof

/-- A written-down beat is well formed when its port starts operations (R80) and its word fits the port
(20_memory.md R54). -/
def RawBeat.WellFormed (b : RawBeat) : Bool :=
  b.port.startsOperation && decide (b.word < 2 ^ b.port.width)

/-- Every instruction is well formed: the operand types hold exactly the values the ports carry, and R81 reserves
none of them (a WRAP whose length overflows is a defined operation, which faults). -/
def Instr.WellFormed : Instr → Bool
  | .dec16 _ => true
  | .dec8 _ => true
  | .enc _ => true
  | .wrap _ _ _ _ _ => true

end Sys2Proof
end

