-- ==== Sys2Proof/Decode.lean ====
section
/-! DEFINITION. Reading a beat word as an operation, and writing an operation as a beat word: 30_encoding.md R75 to
R81, opcode_table.json. There are no bytes to fetch and no fetch byte order (20_memory.md R55). -/

namespace Sys2Proof

/-- Why a written-down beat is no operation. -/
inductive Reject where
  /-- The port starts no operation (R80). -/
  | notAnOperationPort (p : Port)
  /-- The word has more bits than the port (20_memory.md R54). -/
  | tooWide (p : Port)
deriving DecidableEq, Repr

/-- DECBEAT `{depth8, u[7:0]}`: bit 8 selects DEC16 or DEC8 (R75). -/
def decodeDec (w : BitVec 9) : Instr :=
  if w.getLsbD 8 then .dec8 (w.extractLsb' 0 8) else .dec16 (w.extractLsb' 0 8)

/-- ENCBEAT: the whole word is the sample (R76). -/
def decodeEnc (w : BitVec 16) : Instr := .enc w

/-- WRAPCMD `{le, bits[15:0], channels[15:0], rate[31:0], len[31:0]}` (R77). -/
def decodeWrap (w : BitVec 97) : Instr :=
  .wrap (w.getLsbD 96) (w.extractLsb' 80 16) (w.extractLsb' 64 16) (w.extractLsb' 32 32) (w.extractLsb' 0 32)

/-- Total decoding of a written-down beat (R80, R81): every word that fits an operation port is an operation. -/
def decode (b : RawBeat) : Except Reject Instr :=
  match b.port with
  | .decIn => if b.word < 2 ^ 9 then .ok (decodeDec (BitVec.ofNat 9 b.word)) else .error (.tooWide .decIn)
  | .encIn => if b.word < 2 ^ 16 then .ok (decodeEnc (BitVec.ofNat 16 b.word)) else .error (.tooWide .encIn)
  | .wavCmd => if b.word < 2 ^ 97 then .ok (decodeWrap (BitVec.ofNat 97 b.word)) else .error (.tooWide .wavCmd)
  | .decOut => .error (.notAnOperationPort .decOut)
  | .encOut => .error (.notAnOperationPort .encOut)
  | .wavIn => .error (.notAnOperationPort .wavIn)
  | .wavOut => .error (.notAnOperationPort .wavOut)

/-- The DECBEAT word of a depth select and a byte (R75). -/
def decBeatWord (depth8 : Bool) (u : Byte) : BitVec 9 := BitVec.ofBool depth8 ++ u

/-- The WRAPCMD word of a command (R77). -/
def wrapCmdWord (le : Bool) (bits channels : Half) (rate len : Word) : BitVec 97 :=
  BitVec.ofBool le ++ (bits ++ (channels ++ (rate ++ len)))

/-- The written-down beat of an operation (R75 to R77). -/
def encode : Instr → RawBeat
  | .dec16 u => ⟨.decIn, (decBeatWord false u).toNat⟩
  | .dec8 u => ⟨.decIn, (decBeatWord true u).toNat⟩
  | .enc s => ⟨.encIn, s.toNat⟩
  | .wrap le bits channels rate len => ⟨.wavCmd, (wrapCmdWord le bits channels rate len).toNat⟩

/-- The port a word of the opcode table stands on. The table's words carry no port (R76, R80), so it is read off the
number of bits: more than 16 bits is a WRAPCMD, and so is a row to which the table gives no bits; among the 16-bit
words those above 511 are ENCBEATs, and a word that fits 9 bits is read as a DECBEAT. DESIGN CHOICE, log 11. -/
def tableBeat (nbits w : Nat) : RawBeat :=
  if 16 < nbits ∨ nbits < 9 then ⟨.wavCmd, w⟩
  else if w < 2 ^ 9 then ⟨.decIn, w⟩
  else ⟨.encIn, w⟩

/-- The instruction the decoder reads from a word of the opcode table, none where it refuses. -/
def decodeTableWord (nbits w : Nat) : Option Instr :=
  match decode (tableBeat nbits w) with
  | .ok i => some i
  | .error _ => none

end Sys2Proof
end

