-- ==== Sys2Proof/Machine/State.lean ====
section
/-! DEFINITION. The state of the block: registers (10_state.md R27 to R29), streams (20_memory.md R54), the inputs at
the coming edges (10_state.md R20 to R23), and the reset state (10_state.md R39). -/

namespace Sys2Proof.Machine

/-- The faults of the block (60_exceptions.md R190: there is one). The block goes on after it: the sequencer enters
its FAULT state and DEC and ENC are untouched (R194), so the fault is a next state and no outcome of `step` carries
this type (log 9). `State.faultOf` reads it off a state. -/
inductive Fault where
  /-- Cause 1, raised by WRAP when its command fires with len above 0xFFFFFFD3 (R190). Safe: taken as the spec says. -/
  | wavLengthOverflow
deriving DecidableEq, Repr

/-- Why a step has no meaning. -/
inductive Refusal where
  /-- Raised only by an arm of `exec` whose instruction has no meaning yet; there is none. Safe. -/
  | notModelled (mnemonic : String)
deriving DecidableEq, Repr

/-- Input pins of unit DEC (10_state.md R21). -/
structure DecPins where
  inValid : Bool
  inData : Byte
  inDepth8 : Bool
  outReady : Bool
deriving DecidableEq, Repr

/-- Input pins of unit ENC (10_state.md R22). -/
structure EncPins where
  inValid : Bool
  inData : Half
  outReady : Bool
deriving DecidableEq, Repr

/-- Input pins of unit WAV (10_state.md R23). -/
structure WavPins where
  cmdValid : Bool
  cmdRate : Word
  cmdChannels : Half
  cmdBits : Half
  cmdLe : Bool
  cmdLen : Word
  inValid : Bool
  inData : Byte
  outReady : Bool
deriving DecidableEq, Repr

/-- All input pins of the block at one rising edge of `clk` (10_state.md R20 to R23). -/
structure Pins where
  rst : Bool
  dec : DecPins
  enc : EncPins
  wav : WavPins
deriving DecidableEq, Repr

/-- Inputs of a host that offers nothing, takes every result and does not reset. -/
def Pins.idle : Pins where
  rst := false
  dec := { inValid := false, inData := 0, inDepth8 := false, outReady := true }
  enc := { inValid := false, inData := 0, outReady := true }
  wav := { cmdValid := false, cmdRate := 0, cmdChannels := 0, cmdBits := 0, cmdLe := false, cmdLen := 0,
           inValid := false, inData := 0, outReady := true }

/-- A beat on DEC in (30_encoding.md R75). -/
structure DecBeat where
  depth8 : Bool
  data : Byte
deriving DecidableEq, Repr

/-- A beat on DEC out (20_memory.md R54, 10_state.md R21). -/
structure DecResult where
  data : Half
  depth8 : Bool
deriving DecidableEq, Repr

/-- A beat on the WAV command port (30_encoding.md R77). -/
structure WrapCmd where
  le : Bool
  bits : Half
  channels : Half
  rate : Word
  len : Word
deriving DecidableEq, Repr

/-- A beat on WAV out (20_memory.md R54, 10_state.md R23). -/
structure FrameByte where
  data : Byte
  last : Bool
deriving DecidableEq, Repr

/-- The four values of `wav_state` (10_state.md R29). -/
inductive WavState where
  | idle
  | header
  | payload
  | fault
deriving DecidableEq, Repr

/-- The 2-bit encoding of `wav_state` (10_state.md R29). -/
def WavState.code : WavState → BitVec 2
  | .idle => 0
  | .header => 1
  | .payload => 2
  | .fault => 3

/-- Registers of DEC (10_state.md R27). -/
structure DecRegs where
  v1 : Bool
  a1 : Byte
  d1 : Bool
  v2 : Bool
  y2 : Half
  d2 : Bool
deriving DecidableEq, Repr

/-- Registers of ENC (10_state.md R28). -/
structure EncRegs where
  v1 : Bool
  neg1 : Bool
  mag1 : Half
  v2 : Bool
  b2 : Byte
deriving DecidableEq, Repr

/-- Registers of WAV (10_state.md R29). -/
structure WavRegs where
  state : WavState
  idx : BitVec 6
  rem : Word
  rate : Word
  ch : Half
  bits : Half
  le : Bool
deriving DecidableEq, Repr

/-- The beats that have fired on DEC's two ports since the last reset edge, oldest first (20_memory.md R54; log 4). -/
structure DecStreams where
  taken : List DecBeat
  given : List DecResult
deriving DecidableEq, Repr

/-- The beats that have fired on ENC's two ports since the last reset edge, oldest first (R54; log 4). -/
structure EncStreams where
  taken : List Half
  given : List Byte
deriving DecidableEq, Repr

/-- The beats that have fired on WAV's three ports since the last reset edge, oldest first (R54; log 4). -/
structure WavStreams where
  cmds : List WrapCmd
  payload : List Byte
  out : List FrameByte
deriving DecidableEq, Repr

/-- The whole state: the registers of the three units, their streams, the values the inputs show at the coming edges, the
next edge first (log 2), and the values they show at every edge after those (log 3). -/
structure State where
  dec : DecRegs
  enc : EncRegs
  wav : WavRegs
  decStreams : DecStreams
  encStreams : EncStreams
  wavStreams : WavStreams
  inputs : List Pins
  held : Pins
deriving DecidableEq, Repr

/-- The state after a reset edge (10_state.md R39): the four valid bits 0 and `wav_state` IDLE. R39 leaves the other
registers unspecified; zero is the model's choice (DESIGN CHOICE, unsafe, log 1). No input is on its way (log 2), and the
host holds the idle pins (DESIGN CHOICE, log 3). -/
def State.reset : State where
  dec := { v1 := false, a1 := 0, d1 := false, v2 := false, y2 := 0, d2 := false }
  enc := { v1 := false, neg1 := false, mag1 := 0, v2 := false, b2 := 0 }
  wav := { state := .idle, idx := 0, rem := 0, rate := 0, ch := 0, bits := 0, le := false }
  decStreams := { taken := [], given := [] }
  encStreams := { taken := [], given := [] }
  wavStreams := { cmds := [], payload := [], out := [] }
  inputs := []
  held := Pins.idle

end Sys2Proof.Machine
end

