-- ==== Sys2Proof/Machine/Operands.lean ====
section
/-! DEFINITION. Operands: the input pins and the beats they offer (30_encoding.md R75 to R80), the fields of the code
word (R71 to R73), the sample formats and the narrowing candidates (R74, 40_decode.md R104), the biased magnitude
(41_encode.md R120), and the serialisation of header fields (42_wav_wrap.md R144). -/

namespace Sys2Proof.Machine

/-- What the inputs show just before the next rising edge (00_scope.md R11): the next entry of the list of coming
inputs, the held inputs when it is at its end (log 2, log 3). -/
def State.pins (s : State) : Pins := s.inputs.headD s.held

/-- The operation on offer on the DEC port, read off its two signals (R75, R80). -/
def decOffered (p : Pins) : Option Instr :=
  if p.dec.inValid then some (decodeDec (decBeatWord p.dec.inDepth8 p.dec.inData)) else none

/-- The operation on offer on the ENC port (R76, R80). -/
def encOffered (p : Pins) : Option Instr :=
  if p.enc.inValid then some (decodeEnc p.enc.inData) else none

/-- The operation on offer on the WAV command port (R77, R80). -/
def wavOffered (p : Pins) : Option Instr :=
  if p.wav.cmdValid then
    some (decodeWrap (wrapCmdWord p.wav.cmdLe p.wav.cmdBits p.wav.cmdChannels p.wav.cmdRate p.wav.cmdLen))
  else none

/-- The beat the host shows on DEC in, none while `dec_in_valid` is 0 (10_state.md R21). -/
def Pins.decBeat (p : Pins) : Option DecBeat := if p.dec.inValid then some ⟨p.dec.inDepth8, p.dec.inData⟩ else none

/-- The sample the host shows on ENC in, none while `enc_in_valid` is 0 (10_state.md R22). -/
def Pins.encBeat (p : Pins) : Option Half := if p.enc.inValid then some p.enc.inData else none

/-- The command the host shows on the WAV command port, none while `wav_cmd_valid` is 0 (10_state.md R23). -/
def Pins.wrapCmd (p : Pins) : Option WrapCmd :=
  if p.wav.cmdValid then some ⟨p.wav.cmdLe, p.wav.cmdBits, p.wav.cmdChannels, p.wav.cmdRate, p.wav.cmdLen⟩ else none

/-- The pins with no operation on offer and no reset; ready signals and the payload port as they are. -/
def Pins.withoutOperation (p : Pins) : Pins :=
  { p with
    rst := false
    dec := { p.dec with inValid := false }
    enc := { p.enc with inValid := false }
    wav := { p.wav with cmdValid := false } }

/-- The pins with exactly the written-down beat on offer, its bits laid out by R75 to R77. -/
def Pins.offerBeat (b : RawBeat) (p : Pins) : Pins :=
  let q := p.withoutOperation
  match b.port with
  | .decIn =>
    let w := BitVec.ofNat 9 b.word
    { q with dec := { q.dec with inValid := true, inData := w.extractLsb' 0 8, inDepth8 := w.getLsbD 8 } }
  | .encIn => { q with enc := { q.enc with inValid := true, inData := BitVec.ofNat 16 b.word } }
  | .wavCmd =>
    let w := BitVec.ofNat 97 b.word
    { q with
      wav := { q.wav with
        cmdValid := true
        cmdLe := w.getLsbD 96
        cmdBits := w.extractLsb' 80 16
        cmdChannels := w.extractLsb' 64 16
        cmdRate := w.extractLsb' 32 32
        cmdLen := w.extractLsb' 0 32 } }
  | .decOut | .encOut | .wavIn | .wavOut => q

/-! ### The code word (R71 to R73) -/

/-- `v`, the bitwise complement of the wire byte: `255 - uint_8(u)` (R72). -/
def ulawInv (u : Byte) : Nat := 255 - u.toNat

/-- Quantization field Q (R72). -/
def ulawQuant (u : Byte) : Nat := ulawInv u &&& Config.quantMask

/-- Segment field E (R72). -/
def ulawSegment (u : Byte) : Nat := (ulawInv u &&& Config.segMask) >>> Config.segShift

/-- Sign field S (R72): bit 7 of the inverted byte (40_decode.md R101, 90_conflicts.md C1). -/
def ulawSign (u : Byte) : Nat := (ulawInv u &&& Config.signBit) >>> 7

/-- The mask of a sign: 0x7F for a negative sample, 0xFF otherwise (R79). -/
def ulawMask (neg : Bool) : Byte := if neg then Config.negMask else Config.posMask

/-- Field assembly `low_8(((seg << 4) | q) ^ m)` (R73). -/
def ulawAssemble (seg q : Nat) (m : Byte) : Byte := BitVec.ofNat 8 ((seg <<< 4) ||| q) ^^^ m

/-! ### Samples (R74, R104, R120) -/

/-- The biased magnitude: `0x84 - s` for a negative sample, `s + 0x84` otherwise (41_encode.md R120). -/
def biasedMag (s : Int) : Nat := if s < 0 then (Config.bias - s).toNat else (s + Config.bias).toNat

/-- Candidate narrowing: keep the low 8 bits (R104). -/
def trunc8 (y : Int) : Int := (BitVec.ofInt 8 y).toInt

/-- Candidate narrowing: saturate (R104). -/
def sat8 (y : Int) : Int := if y < -128 then -128 else if y > 127 then 127 else y

/-- Candidate narrowing: keep the high 8 bits, `floor(y / 256)` (R104); division by a positive integer is floor division. -/
def hi8 (y : Int) : Int := y / 256

/-- A narrowing on integers as one on words: `low_8(f(sint_16(w)))` (R105). -/
def narrowWord (f : Int → Int) (w : Half) : Byte := BitVec.ofInt 8 (f w.toInt)

/-! ### Header fields (R144) -/

/-- Byte `j` of the `k`-byte serialisation of `x`, least significant byte first when `le` (R144). -/
def serByte (le : Bool) (k x j : Nat) : Byte :=
  if le then BitVec.ofNat 8 ((x >>> (8 * j)) &&& 0xFF) else BitVec.ofNat 8 ((x >>> (8 * (k - 1 - j))) &&& 0xFF)

/-- The `k`-byte serialisation of `x` (R144). -/
def ser (le : Bool) (k x : Nat) : List Byte := (List.range k).map (serByte le k x)

end Sys2Proof.Machine
end

