-- ==== Sys2Proof/Machine/Ops.lean ====
section
/-! DEFINITION. Named operations: one setter per field of State, the input script, the sequencing of unit edges, the
two constant tables (10_state.md R31) with the codec functions they hold (40_decode.md R100, 41_encode.md R120), entering
the fault (60_exceptions.md R194) and leaving it by reset (70_reset_and_hazards.md R210). -/

namespace Sys2Proof.Machine

/-! ### Fields of State -/

/-- `s` with DEC's registers replaced. -/
def State.setDec (s : State) (r : DecRegs) : State := { s with dec := r }
/-- `s` with ENC's registers replaced. -/
def State.setEnc (s : State) (r : EncRegs) : State := { s with enc := r }
/-- `s` with WAV's registers replaced. -/
def State.setWav (s : State) (r : WavRegs) : State := { s with wav := r }
/-- `s` with DEC's streams replaced. -/
def State.setDecStreams (s : State) (x : DecStreams) : State := { s with decStreams := x }
/-- `s` with ENC's streams replaced. -/
def State.setEncStreams (s : State) (x : EncStreams) : State := { s with encStreams := x }
/-- `s` with WAV's streams replaced. -/
def State.setWavStreams (s : State) (x : WavStreams) : State := { s with wavStreams := x }
/-- `s` with the coming inputs replaced. -/
def State.setInputs (s : State) (l : List Pins) : State := { s with inputs := l }
/-- `s` with the inputs after the coming ones replaced. -/
def State.setHeld (s : State) (p : Pins) : State := { s with held := p }
/-- `s` with the inputs of the next edge given, and none after it but the held ones. -/
def State.showing (s : State) (p : Pins) : State := s.setInputs [p]

/-- The edge is over: the inputs now show what they show at the next edge (log 2). -/
def State.advance (s : State) : State := s.setInputs s.inputs.tail

/-- One unit's edge after another's: the three units' registers are disjoint (10_state.md R30), so their order does
not matter (log 18). -/
def andThen (o : Host.Outcome State Fault Refusal) (f : State → Host.Outcome State Fault Refusal) :
    Host.Outcome State Fault Refusal :=
  match o with
  | .next s => f s
  | .fault r => .fault r
  | .refused r => .refused r

/-! ### The decoder's function and table (R100, R31, R51) -/

/-- `ulaw_decode` (40_decode.md R100), exact on integers. -/
def ulawDecode (u : Byte) : Int :=
  let t : Nat := ((ulawQuant u <<< Config.quantShift) + Config.bias) <<< ulawSegment u
  if ulawSign u = 1 then Config.bias - t else t - Config.bias

/-- `DEC_LUT`: entry i is `low_16(ulaw_decode(i))`, generated from the formula (10_state.md R31, 40_decode.md R103). -/
def decLut : List Half := (List.range Config.lutSize).map fun i => BitVec.ofInt 16 (ulawDecode (BitVec.ofNat 8 i))

/-- `RomRead(DEC_LUT, u)`: the address is the byte as received (20_memory.md R51). -/
def decRomRead (u : Byte) : Half := decLut.getD u.toNat 0

/-- The DEC result word under a given narrowing (40_decode.md R105). -/
def decWordWith (narrow : Half → Byte) (u : Byte) (depth8 : Bool) : Half :=
  if depth8 then (narrow (decRomRead u)).signExtend 16 else decRomRead u

/-- The DEC result word of the block (R105): NARROW8 is the open parameter (log 5). -/
def decWord (u : Byte) (depth8 : Bool) : Half := decWordWith Config.narrow8 u depth8

/-! ### The encoder's function and table (R120, R122, R123) -/

/-- `SEG_END[0..7]` (41_encode.md R122). -/
def segEnd : List Half := [0x00FF, 0x01FF, 0x03FF, 0x07FF, 0x0FFF, 0x1FFF, 0x3FFF, 0x7FFF]

/-- Linear scan in ascending order: the least index whose threshold the magnitude does not exceed, the number of
thresholds if there is none (R120 step 2, R123). -/
def segScan (mag : Nat) : List Half → Nat
  | [] => 0
  | e :: es => if mag ≤ e.toNat then 0 else segScan mag es + 1

/-- `ulaw_encode` (R120), on every integer (92_eei_decisions.md D10). -/
def ulawEncode (s : Int) : Byte :=
  let mag := biasedMag s
  let m := ulawMask (decide (s < 0))
  let seg := segScan mag segEnd
  if 8 ≤ seg then Config.maxCode ^^^ m
  else ulawAssemble seg ((mag >>> (seg + 3)) &&& Config.quantMask) m

/-- The eight comparators, `c[i] = (mag <= SEG_END[i])`, all at once and unsigned (R123, 20_memory.md R52). -/
def segCompare (mag : Half) : List Bool := segEnd.map fun e => decide (mag.toNat ≤ e.toNat)

/-- The comparator tree: the index of the lowest comparator that is 1, 8 if all are 0 (R123). -/
def segTree (mag : Half) : Nat := (segCompare mag).findIdx id

/-- `enc_code(mag, neg)`: steps 2 to 4 of R120 on ENC's stage 1 registers (43_buffer_forms_and_handshake.md R175). -/
def encCode (mag : Half) (neg : Bool) : Byte :=
  let m := ulawMask neg
  let seg := segTree mag
  if 8 ≤ seg then Config.maxCode ^^^ m
  else ulawAssemble seg ((mag.toNat >>> (seg + 3)) &&& Config.quantMask) m

/-! ### The header image (42_wav_wrap.md R141 to R144) -/

/-- ASCII "RIFF" (30_encoding.md R79). -/
def asciiRiff : List Byte := [0x52, 0x49, 0x46, 0x46]
/-- ASCII "WAVE" (R79). -/
def asciiWave : List Byte := [0x57, 0x41, 0x56, 0x45]
/-- ASCII "fmt " with its trailing space (R79). -/
def asciiFmt : List Byte := [0x66, 0x6D, 0x74, 0x20]
/-- ASCII "data" (R79). -/
def asciiData : List Byte := [0x64, 0x61, 0x74, 0x61]

/-- `riff_size = 44 + N` (R142, 90_conflicts.md C2). -/
def riffSize (n : Nat) : Nat := Config.hdrLen + n

/-- `byte_rate = low_32((ch * rate * bits) div 8)` (R142). -/
def byteRate (ch rate bits : Nat) : Nat := (ch * rate * bits) / 8 % 2 ^ 32

/-- `block_align = low_16((ch * bits) div 8)` (R142). -/
def blockAlign (ch bits : Nat) : Nat := (ch * bits) / 8 % 2 ^ 16

/-- `HDR(i)` (R143) for the payload length `n` and the four parameters; beyond 43 a free value (log 6).
All nine integer fields follow `le` (log 13). -/
def hdrByte (n rate ch bits : Nat) (le : Bool) (i : Nat) : Byte :=
  if i < 4 then asciiRiff.getD i 0
  else if i < 8 then serByte le 4 (riffSize n) (i - 4)
  else if i < 12 then asciiWave.getD (i - 8) 0
  else if i < 16 then asciiFmt.getD (i - 12) 0
  else if i < 20 then serByte le 4 Config.fmtSize (i - 16)
  else if i < 22 then serByte le 2 Config.fmtTag (i - 20)
  else if i < 24 then serByte le 2 ch (i - 22)
  else if i < 28 then serByte le 4 rate (i - 24)
  else if i < 32 then serByte le 4 (byteRate ch rate bits) (i - 28)
  else if i < 34 then serByte le 2 (blockAlign ch bits) (i - 32)
  else if i < 36 then serByte le 2 bits (i - 34)
  else if i < 40 then asciiData.getD (i - 36) 0
  else if i < 44 then serByte le 4 n (i - 40)
  else Config.hdrOutside i

/-- `wav_header`: the sequence HDR(0), ..., HDR(43) (R143). -/
def wavHeader (n rate ch bits : Nat) (le : Bool) : List Byte :=
  (List.range Config.hdrLen).map (hdrByte n rate ch bits le)

/-- `wav_wrap` (R140): the frame, or the length overflow of 60_exceptions.md R190. -/
def wavWrap (payload : List Byte) (rate ch bits : Nat) (le : Bool) : Except Fault (List Byte) :=
  if 44 + payload.length > 0xFFFFFFFF then .error .wavLengthOverflow
  else .ok (wavHeader payload.length rate ch bits le ++ payload)

/-! ### The fault and the reset -/

/-- Fault entry (60_exceptions.md R194): nothing is saved beyond the latched command, `wav_state` becomes FAULT. -/
def WavRegs.enterFault (r : WavRegs) : WavRegs := { r with state := .fault }

/-- A reset edge in DEC (70_reset_and_hazards.md R210): the two valid bits, no other register (log 14). -/
def DecRegs.clear (r : DecRegs) : DecRegs := { r with v1 := false, v2 := false }

/-- A reset edge in ENC (R210): the two valid bits, no other register (log 14). -/
def EncRegs.clear (r : EncRegs) : EncRegs := { r with v1 := false, v2 := false }

/-- A reset edge in WAV (R210): `wav_state` becomes IDLE, no other register (log 14). It is the only exit from FAULT
(60_exceptions.md R195). -/
def WavRegs.clear (r : WavRegs) : WavRegs := { r with state := .idle }

end Sys2Proof.Machine
end

