-- ==== Sys2Proof/Machine/Dec.lean ====
section
/-! DEFINITION. Unit DEC: its wires (43_buffer_forms_and_handshake.md R173), its edge (R174), and the operations DEC16
and DEC8 (40_decode.md R106, R107). -/

namespace Sys2Proof.Machine

/-- The result of a beat taken on DEC in: R180's `f(d, u) = (dec_word(u, d), d)`. -/
def decAnswer (b : DecBeat) : DecResult := ⟨decWord b.data b.depth8, b.depth8⟩

/-- `dec_s2_free`: stage 2 is empty or is being emptied at this edge (R173). -/
def decS2Free (r : DecRegs) (outReady : Bool) : Bool := !r.v2 || outReady

/-- `dec_s1_free`, which is `dec_in_ready`: stage 1 is empty or will move on at this edge (R173). -/
def decS1Free (r : DecRegs) (outReady : Bool) : Bool := !r.v1 || decS2Free r outReady

/-- What DEC offers on its output port: the stage 2 registers while `dec_v2` is 1 (R173), no value otherwise
(10_state.md R25, log 7). -/
def decOutput (r : DecRegs) : Option DecResult := if r.v2 then some ⟨r.y2, r.d2⟩ else none

/-- Stage 2 at an edge that is no reset edge: the table read (R174). -/
def decLoad2 (outReady : Bool) (r : DecRegs) : DecRegs :=
  if decS2Free r outReady then
    if r.v1 then { r with v2 := true, y2 := decWord r.a1 r.d1, d2 := r.d1 } else { r with v2 := false }
  else r

/-- Stage 1 at an edge that is no reset edge, given whether it is free: the address register (R174). -/
def decLoad1 (free : Bool) (offer : Option DecBeat) (r : DecRegs) : DecRegs :=
  if free then
    match offer with
    | some b => { r with v1 := true, a1 := b.data, d1 := b.depth8 }
    | none => { r with v1 := false }
  else r

/-- DEC's registers after a rising edge (R174; reset edge R210). -/
def decNext (rst : Bool) (offer : Option DecBeat) (outReady : Bool) (r : DecRegs) : DecRegs :=
  if rst then r.clear else decLoad1 (decS1Free r outReady) offer (decLoad2 outReady r)

/-- DEC's streams after a rising edge: a beat joins a stream when it fires (R171); a reset edge begins them anew
(20_memory.md R54). -/
def decStreamsNext (rst : Bool) (offer : Option DecBeat) (outReady : Bool) (r : DecRegs) (x : DecStreams) : DecStreams :=
  if rst then ⟨[], []⟩
  else
    { taken := if decS1Free r outReady then x.taken ++ offer.toList else x.taken
      given := if outReady then x.given ++ (decOutput r).toList else x.given }

/-- One rising edge of DEC with the beat `offer` on its input port, none while `dec_in_valid` is 0. -/
def decEdge (offer : Option DecBeat) (s : State) : State :=
  (s.setDec (decNext s.pins.rst offer s.pins.dec.outReady s.dec)).setDecStreams
    (decStreamsNext s.pins.rst offer s.pins.dec.outReady s.dec s.decStreams)

/-- DEC16 (R106): the edge of DEC at which the beat `{0, u}` is on offer. The edges after it carry the beat to stage 2,
where it becomes `dec_word(u, 0)` (R174, R105). -/
def execDec16 (u : Byte) (s : State) : Host.Outcome State Fault Refusal := .next (decEdge (some ⟨false, u⟩) s)

/-- DEC8 (R107): the edge of DEC at which the beat `{1, u}` is on offer. The edges after it carry the beat to stage 2,
where it becomes `dec_word(u, 1)` (R174, R105). -/
def execDec8 (u : Byte) (s : State) : Host.Outcome State Fault Refusal := .next (decEdge (some ⟨true, u⟩) s)

end Sys2Proof.Machine
end

