-- ==== Sys2Proof/Machine/Enc.lean ====
section
/-! DEFINITION. Unit ENC: its wires (43_buffer_forms_and_handshake.md R173), its edge (R175), and the operation ENC
(41_encode.md R125). -/

namespace Sys2Proof.Machine

/-- The result of a beat taken on ENC in: R180's `f(s) = ulaw_encode(s)`. -/
def encAnswer (w : Half) : Byte := ulawEncode w.toInt

/-- `enc_s2_free` (R173). -/
def encS2Free (r : EncRegs) (outReady : Bool) : Bool := !r.v2 || outReady

/-- `enc_s1_free`, which is `enc_in_ready` (R173). -/
def encS1Free (r : EncRegs) (outReady : Bool) : Bool := !r.v1 || encS2Free r outReady

/-- What ENC offers on its output port: `enc_b2` while `enc_v2` is 1 (R173), no value otherwise (10_state.md R25,
log 7). -/
def encOutput (r : EncRegs) : Option Byte := if r.v2 then some r.b2 else none

/-- Stage 2 at an edge that is no reset edge: segment search, field extraction, exclusive-or (R175). -/
def encLoad2 (outReady : Bool) (r : EncRegs) : EncRegs :=
  if encS2Free r outReady then
    if r.v1 then { r with v2 := true, b2 := encCode r.mag1 r.neg1 } else { r with v2 := false }
  else r

/-- Stage 1 at an edge that is no reset edge, given whether it is free: sign and biased magnitude (R175). -/
def encLoad1 (free : Bool) (offer : Option Half) (r : EncRegs) : EncRegs :=
  if free then
    match offer with
    | some w => { r with v1 := true, neg1 := decide (w.toInt < 0), mag1 := BitVec.ofNat 16 (biasedMag w.toInt) }
    | none => { r with v1 := false }
  else r

/-- ENC's registers after a rising edge (R175; reset edge R210). -/
def encNext (rst : Bool) (offer : Option Half) (outReady : Bool) (r : EncRegs) : EncRegs :=
  if rst then r.clear else encLoad1 (encS1Free r outReady) offer (encLoad2 outReady r)

/-- ENC's streams after a rising edge (R171, 20_memory.md R54). -/
def encStreamsNext (rst : Bool) (offer : Option Half) (outReady : Bool) (r : EncRegs) (x : EncStreams) : EncStreams :=
  if rst then ⟨[], []⟩
  else
    { taken := if encS1Free r outReady then x.taken ++ offer.toList else x.taken
      given := if outReady then x.given ++ (encOutput r).toList else x.given }

/-- One rising edge of ENC with the sample `offer` on its input port, none while `enc_in_valid` is 0. -/
def encEdge (offer : Option Half) (s : State) : State :=
  (s.setEnc (encNext s.pins.rst offer s.pins.enc.outReady s.enc)).setEncStreams
    (encStreamsNext s.pins.rst offer s.pins.enc.outReady s.enc s.encStreams)

/-- ENC (R125): the edge of ENC at which the sample `w` is on offer. Stage 1 takes its sign and biased magnitude; the
next edge of a free stage 2 turns them into `ulaw_encode(sint_16(w))` (R175). -/
def execEnc (w : Half) (s : State) : Host.Outcome State Fault Refusal := .next (encEdge (some w) s)

end Sys2Proof.Machine
end

