-- ==== Sys2Proof/Machine/Wav.lean ====
section
/-! DEFINITION. Unit WAV: its outputs (42_wav_wrap.md R150), its sequencer (R151 to R154), and the operation WRAP
(R140). -/

namespace Sys2Proof.Machine

/-- `wav_cmd_ready` (R150, 10_state.md R23). -/
def wavCmdReady (r : WavRegs) : Bool := decide (r.state = .idle)

/-- `wav_in_ready` (R150). -/
def wavInReady (r : WavRegs) (outReady : Bool) : Bool := decide (r.state = .payload) && outReady

/-- `HDR(wav_idx)` on the latches: in HEADER `wav_rem` holds N (R143, R152). -/
def wavHdrNow (r : WavRegs) : Byte := hdrByte r.rem.toNat r.rate.toNat r.ch.toNat r.bits.toNat r.le r.idx.toNat

/-- The command the latches hold while `wav_rem` still holds N (10_state.md R29). -/
def WavRegs.latched (r : WavRegs) : WrapCmd := ⟨r.le, r.bits, r.ch, r.rate, r.rem⟩

/-- The header of a command (R143). -/
def WrapCmd.header (c : WrapCmd) : List Byte := wavHeader c.len.toNat c.rate.toNat c.channels.toNat c.bits.toNat c.le

/-- A byte sequence as beats of a frame that ends with it: `last` on the final byte and on no other (R155). -/
def markLast : List Byte → List FrameByte
  | [] => []
  | [b] => [⟨b, true⟩]
  | b :: bs => ⟨b, false⟩ :: markLast bs

/-- Bytes of a frame that goes on after them. -/
def unmarked (bs : List Byte) : List FrameByte := bs.map fun b => ⟨b, false⟩

/-- The beats of the frame of a command and its payload: `wav_wrap` (R140) with its last byte marked (R155, R160). -/
def frameOf (c : WrapCmd) (payload : List Byte) : List FrameByte :=
  match wavWrap payload c.rate.toNat c.channels.toNat c.bits.toNat c.le with
  | .ok bytes => markLast bytes
  | .error _ => []

/-- The frames of a sequence of commands, each taking its own length from the payload stream (R156, R160). -/
def framesOf : List WrapCmd → List Byte → List FrameByte
  | [], _ => []
  | c :: cs, p => frameOf c (p.take c.len.toNat) ++ framesOf cs (p.drop c.len.toNat)

/-- What WAV offers on its output port (R150); no value while `wav_out_valid` is 0 (10_state.md R25, log 7). The two
payload arguments are `wav_in_valid` and `wav_in_data`. -/
def wavOutput (inValid : Bool) (inData : Byte) (r : WavRegs) : Option FrameByte :=
  match r.state with
  | .idle => none
  | .header => some ⟨wavHdrNow r, decide (r.idx = 43 ∧ r.rem = 0)⟩
  | .payload => if inValid then some ⟨inData, decide (r.rem = 1)⟩ else none
  | .fault => none

/-- Latching a command (R151). -/
def wavLatch (c : WrapCmd) (r : WavRegs) : WavRegs :=
  { r with rate := c.rate, ch := c.channels, bits := c.bits, le := c.le, rem := c.len, idx := 0 }

/-- IDLE: take a command, or raise the length overflow (R151, 60_exceptions.md R190). -/
def wavIdleEdge (cmd : Option WrapCmd) (r : WavRegs) : WavRegs :=
  match cmd with
  | none => r
  | some c =>
    if c.len.toNat > Config.lenMax then (wavLatch c r).enterFault else { wavLatch c r with state := .header }

/-- HEADER: one header byte is taken when the host is ready (R152; an index beyond 43: log 20). -/
def wavHeaderEdge (outReady : Bool) (r : WavRegs) : WavRegs :=
  if outReady then
    if r.idx.toNat < 43 then { r with idx := r.idx + 1 }
    else if r.rem = 0 then { r with state := .idle }
    else { r with state := .payload }
  else r

/-- PAYLOAD: one payload byte passes when it is offered and the host is ready (R153; `wav_rem` at 0: log 20). -/
def wavPayloadEdge (inValid outReady : Bool) (r : WavRegs) : WavRegs :=
  if inValid && outReady then
    if r.rem = 1 then { r with state := .idle } else { r with rem := r.rem - 1 }
  else r

/-- WAV's registers after a rising edge (R151 to R154; reset edge R210). -/
def wavNext (rst : Bool) (cmd : Option WrapCmd) (inValid outReady : Bool) (r : WavRegs) : WavRegs :=
  if rst then r.clear
  else
    match r.state with
    | .idle => wavIdleEdge cmd r
    | .header => wavHeaderEdge outReady r
    | .payload => wavPayloadEdge inValid outReady r
    | .fault => r

/-- WAV's streams after a rising edge: a beat joins a stream when it fires (R171); a reset edge begins them anew
(20_memory.md R54). -/
def wavStreamsNext (rst : Bool) (cmd : Option WrapCmd) (inValid : Bool) (inData : Byte) (outReady : Bool) (r : WavRegs)
    (x : WavStreams) : WavStreams :=
  if rst then ⟨[], [], []⟩
  else
    { cmds := if wavCmdReady r then x.cmds ++ cmd.toList else x.cmds
      payload := if inValid && wavInReady r outReady then x.payload ++ [inData] else x.payload
      out := if outReady then x.out ++ (wavOutput inValid inData r).toList else x.out }

/-- One rising edge of WAV with the command `cmd` on its command port, none while `wav_cmd_valid` is 0. -/
def wavEdge (cmd : Option WrapCmd) (s : State) : State :=
  (s.setWav (wavNext s.pins.rst cmd s.pins.wav.inValid s.pins.wav.outReady s.wav)).setWavStreams
    (wavStreamsNext s.pins.rst cmd s.pins.wav.inValid s.pins.wav.inData s.pins.wav.outReady s.wav s.wavStreams)

/-- WRAP (R140): the edge of WAV at which the command is on offer. In IDLE it is latched and starts a frame or the
fault (R151); in any other state it waits, un-taken, and the sequencer goes on (R151 to R154). -/
def execWrap (le : Bool) (bits channels : Half) (rate len : Word) (s : State) : Host.Outcome State Fault Refusal :=
  .next (wavEdge (some ⟨le, bits, channels, rate, len⟩) s)

end Sys2Proof.Machine
end

