-- ==== Sys2Proof/Machine/Dispatch.lean ====
section
/-! DEFINITION. One arm per operation. `exec i s` is the rising edge, at the inputs `s` shows, of the unit whose port
`i` stands on, with `i` on offer there; at a reset edge it is that unit's reset (log 10, log 19). -/

namespace Sys2Proof.Machine

def exec (i : Instr) (s : State) : Host.Outcome State Fault Refusal :=
  match i with
  | .dec16 u => Sys2Proof.Machine.execDec16 u s
  | .dec8 u => Sys2Proof.Machine.execDec8 u s
  | .enc w => Sys2Proof.Machine.execEnc w s
  | .wrap le bits channels rate len => Sys2Proof.Machine.execWrap le bits channels rate len s

end Sys2Proof.Machine
end

