-- ==== Sys2Proof/Machine/Step.lean ====
section
/-! DEFINITION. One rising edge of `clk` (10_state.md R20): in each unit the operation its port offers is executed, or
the unit's edge runs with nothing on offer; then the inputs move on. -/

namespace Sys2Proof.Machine

/-- One unit's edge: the operation on offer, decoded from the port's signals, or the unit's edge with none. -/
def unitEdge (offered : Option Instr) (noOffer : State → State) (s : State) : Host.Outcome State Fault Refusal :=
  match offered with
  | some i => exec i s
  | none => .next (noOffer s)

/-- One rising edge of the block. The three units read and write disjoint registers (10_state.md R30), so their edges
may be taken one after another (20_memory.md R61, log 18). -/
def step (s : State) : Host.Outcome State Fault Refusal :=
  andThen (unitEdge (decOffered s.pins) (decEdge none) s) fun s1 =>
  andThen (unitEdge (encOffered s1.pins) (encEdge none) s1) fun s2 =>
  andThen (unitEdge (wavOffered s2.pins) (wavEdge none) s2) fun s3 =>
  .next s3.advance

/-- `s` with a word of the opcode table on offer at the next edge, and nothing else on offer: the block fetches no
instructions (10_state.md R34), it takes what its ports show (log 12). -/
def State.withFetchWord (s : State) (nbits w : Nat) : State :=
  s.setInputs (s.pins.offerBeat (tableBeat nbits w) :: s.inputs.tail)

end Sys2Proof.Machine
end

