-- ==== Sys2Proof/Machine/Flags.lean ====
section
/-! DEFINITION. What the block shows on its pins: `wav_err` (10_state.md R35), the `valid` and `ready` of the seven ports
and when a beat fires (43_buffer_forms_and_handshake.md R171). The block has no condition codes and no operation sets a
flag by its arithmetic (R35). -/

namespace Sys2Proof.Machine

/-- `wav_err`: the wire `wav_state = FAULT` (R35, 60_exceptions.md R190). -/
def State.wavErr (s : State) : Bool := decide (s.wav.state = .fault)

/-- The fault a state stands in (R190). -/
def State.faultOf (s : State) : Option Fault := if s.wavErr then some .wavLengthOverflow else none

/-- The cause number of a fault (R190; it appears on no port). -/
def Fault.cause : Fault → Nat
  | .wavLengthOverflow => 1

/-- `valid` of a port, driven by the host on the input ports and by the block on the output ports (R171, R173, R150). -/
def State.validOf (s : State) : Port → Bool
  | .decIn => s.pins.dec.inValid
  | .decOut => (decOutput s.dec).isSome
  | .encIn => s.pins.enc.inValid
  | .encOut => (encOutput s.enc).isSome
  | .wavCmd => s.pins.wav.cmdValid
  | .wavIn => s.pins.wav.inValid
  | .wavOut => (wavOutput s.pins.wav.inValid s.pins.wav.inData s.wav).isSome

/-- `ready` of a port, driven by the block on the input ports and by the host on the output ports (R171, R173, R150). -/
def State.readyOf (s : State) : Port → Bool
  | .decIn => decS1Free s.dec s.pins.dec.outReady
  | .decOut => s.pins.dec.outReady
  | .encIn => encS1Free s.enc s.pins.enc.outReady
  | .encOut => s.pins.enc.outReady
  | .wavCmd => wavCmdReady s.wav
  | .wavIn => wavInReady s.wav s.pins.wav.outReady
  | .wavOut => s.pins.wav.outReady

/-- `fire(P)`: at the next edge a beat transfers on port P (R171). -/
def State.fires (s : State) (p : Port) : Bool := !s.pins.rst && s.validOf p && s.readyOf p

end Sys2Proof.Machine
end

