-- ==== Sys2Proof/Safety.lean ====
section
/-! DEFINITION. What counts as a good end (70_reset_and_hazards.md R221), what a fair host is (R223), the agreement of the
cycle level with the function level (43_buffer_forms_and_handshake.md R180, 42_wav_wrap.md R160), and which registers can be
observed (10_state.md R39). -/

namespace Sys2Proof.Machine

/-- `k` rising edges, one after another. -/
def runEdges : Nat → State → Host.Outcome State Fault Refusal
  | 0, s => .next s
  | k + 1, s => andThen (step s) (runEdges k)

/-- Nothing is in flight: the four valid bits are 0 and the sequencer is IDLE (R221). -/
def State.Quiescent (s : State) : Prop :=
  s.dec.v1 = false ∧ s.dec.v2 = false ∧ s.enc.v1 = false ∧ s.enc.v2 = false ∧ s.wav.state = .idle

/-- These inputs offer no beat. -/
def Pins.Silent (p : Pins) : Prop :=
  p.dec.inValid = false ∧ p.enc.inValid = false ∧ p.wav.cmdValid = false ∧ p.wav.inValid = false

/-- A run has ended well: the host has no further beat to offer and the block is quiescent (R221). What else the host
drives, `rst` included, does not matter. -/
def State.EndedWell (s : State) : Prop := s.Quiescent ∧ (∀ p ∈ s.inputs, p.Silent) ∧ s.held.Silent

/-! ### Fairness (70_reset_and_hazards.md R223) -/

/-- `k` edges under a host that drives `host i` at edge `i`: any host at all, for ever. Its first `k` inputs are also a list
of coming inputs, so every such run is a run of `step` on some state (`hostEdges_eq_edges`). -/
def hostRun (host : Nat → Pins) : Nat → State → Host.Outcome State Fault Refusal
  | 0, s => .next s
  | k + 1, s => andThen (hostRun host k s) fun t => step (t.showing (host k))

/-- A host that never resets. -/
def NoReset (host : Nat → Pins) : Prop := ∀ k, (host k).rst = false

/-- R223 for one output port: a `ready` the block is waiting on, because it offers a beat there, is eventually 1. -/
def FairOn (p : Port) (host : Nat → Pins) (s : State) : Prop :=
  ∀ k t, hostRun host k s = .next t → (t.showing (host k)).validOf p = true →
    ∃ j, k ≤ j ∧ (t.showing (host j)).readyOf p = true

/-- R223 for the payload port: a payload byte the block is waiting on is eventually offered. -/
def FeedsPayload (host : Nat → Pins) (s : State) : Prop :=
  ∀ k t, hostRun host k s = .next t → t.wav.state = .payload → ∃ j, k ≤ j ∧ (host j).wav.inValid = true

/-- R223: the one assumption about the host that every run's good end rests on. -/
def FairHost (host : Nat → Pins) (s : State) : Prop :=
  FairOn .decOut host s ∧ FairOn .encOut host s ∧ FairOn .wavOut host s ∧ FeedsPayload host s

/-- 70_reset_and_hazards.md R215: in PAYLOAD the host keeps an offered byte unchanged until it fires. -/
def SteadyPayload (host : Nat → Pins) (s : State) : Prop :=
  ∀ k t, hostRun host k s = .next t → t.wav.state = .payload → (host k).rst = false →
    (host k).wav.inValid = true → (host k).wav.outReady = false →
    (host (k + 1)).wav.inValid = true ∧ (host (k + 1)).wav.inData = (host k).wav.inData

/-- R180 for DEC: what was taken, answered, is what was given followed by what the two stages hold. -/
def State.DecAgrees (s : State) : Prop :=
  s.decStreams.taken.map decAnswer =
    s.decStreams.given ++ (if s.dec.v2 then [⟨s.dec.y2, s.dec.d2⟩] else []) ++
      (if s.dec.v1 then [decAnswer ⟨s.dec.d1, s.dec.a1⟩] else [])

/-- R180 for ENC: what was taken, encoded, is what was given followed by what the two stages hold. -/
def State.EncAgrees (s : State) : Prop :=
  s.encStreams.taken.map encAnswer =
    s.encStreams.given ++ (if s.enc.v2 then [s.enc.b2] else []) ++
      (if s.enc.v1 then [encCode s.enc.mag1 s.enc.neg1] else [])

/-- A stage 1 that holds a beat holds a magnitude in 132..32900 (10_state.md R28, 41_encode.md R121). -/
def State.MagInRange (s : State) : Prop :=
  s.enc.v1 = true → 132 ≤ s.enc.mag1.toNat ∧ s.enc.mag1.toNat ≤ 32900

/-- These commands have been answered whole: each was legal, the payload stream has exactly their bytes, and the output
stream is their frames, one after another (R156, R160). -/
def Delivered (cmds : List WrapCmd) (payload : List Byte) (out : List FrameByte) : Prop :=
  (∀ c ∈ cmds, c.len.toNat ≤ Config.lenMax) ∧ payload.length = (cmds.map fun c => c.len.toNat).sum ∧
    out = framesOf cmds payload

/-- R160 for WAV: the output stream is the frames of the commands taken, the last of them as far as the sequencer has
come; while a frame is in progress the latches hold its command. -/
def State.WavAgrees (s : State) : Prop :=
  let x := s.wavStreams
  let r := s.wav
  match r.state with
  | .idle => Delivered x.cmds x.payload x.out
  | .header =>
    ∃ cmds out, x.cmds = cmds ++ [r.latched] ∧ Delivered cmds x.payload out ∧ r.rem.toNat ≤ Config.lenMax ∧
      r.idx.toNat ≤ 43 ∧ x.out = out ++ unmarked (r.latched.header.take r.idx.toNat)
  | .payload =>
    ∃ cmds c before now out, x.cmds = cmds ++ [c] ∧ x.payload = before ++ now ∧ Delivered cmds before out ∧
      c.len.toNat ≤ Config.lenMax ∧ 1 ≤ r.rem.toNat ∧ now.length + r.rem.toNat = c.len.toNat ∧
      x.out = out ++ unmarked (c.header ++ now)
  | .fault =>
    ∃ cmds, x.cmds = cmds ++ [r.latched] ∧ Delivered cmds x.payload x.out ∧ r.rem.toNat > Config.lenMax

/-- Two states that differ at most in registers whose guard says nothing has been written there (10_state.md R39): a
stage register counts only while its valid bit is 1, the latches only in HEADER, `wav_rem` also in PAYLOAD. -/
def State.SameGuarded (s t : State) : Prop :=
  s.inputs = t.inputs ∧ s.held = t.held ∧
  s.decStreams = t.decStreams ∧ s.encStreams = t.encStreams ∧ s.wavStreams = t.wavStreams ∧
  (s.dec.v1 = t.dec.v1 ∧ s.dec.v2 = t.dec.v2 ∧
    (s.dec.v1 = true → s.dec.a1 = t.dec.a1 ∧ s.dec.d1 = t.dec.d1) ∧
    (s.dec.v2 = true → s.dec.y2 = t.dec.y2 ∧ s.dec.d2 = t.dec.d2)) ∧
  (s.enc.v1 = t.enc.v1 ∧ s.enc.v2 = t.enc.v2 ∧
    (s.enc.v1 = true → s.enc.neg1 = t.enc.neg1 ∧ s.enc.mag1 = t.enc.mag1) ∧
    (s.enc.v2 = true → s.enc.b2 = t.enc.b2)) ∧
  (s.wav.state = t.wav.state ∧
    (s.wav.state = .header → s.wav = t.wav) ∧
    (s.wav.state = .payload → s.wav.rem = t.wav.rem))

/-- Everything the block shows on its output pins: the three output beats, the four `ready` outputs and `wav_err`
(10_state.md R21 to R23). -/
structure Shown where
  decOut : Option DecResult
  encOut : Option Byte
  wavOut : Option FrameByte
  decInReady : Bool
  encInReady : Bool
  wavCmdReady : Bool
  wavInReady : Bool
  wavErr : Bool
deriving DecidableEq, Repr

/-- What the outputs show just before the next edge (R173, R150). -/
def State.shown (s : State) : Shown where
  decOut := decOutput s.dec
  encOut := encOutput s.enc
  wavOut := wavOutput s.pins.wav.inValid s.pins.wav.inData s.wav
  decInReady := s.readyOf .decIn
  encInReady := s.readyOf .encIn
  wavCmdReady := s.readyOf .wavCmd
  wavInReady := s.readyOf .wavIn
  wavErr := s.wavErr

end Sys2Proof.Machine
end

