-- ==== Sys2Proof/Certificates/Slice0/Obligations.lean ====
section
/-! DEFINITION. The statements for the provers: the rules of spec/ that say what an operation or the block does. -/

open Sys2Proof Sys2Proof.Machine

/-! ### Encoding -/

/-- R75 to R77, R80: the written-down beat of every operation decodes to that operation, with every operand at every
value the port carries. -/
def Obligations.DecodeOfEncode : Prop :=
  ∀ i : Instr, i.WellFormed = true → decode (encode i) = .ok i

/-- R80, R81: every word that fits an operation port is an operation, and each word is the encoding of the operation it
decodes to, so no two words share a meaning. -/
def Obligations.EncodeOfDecode : Prop :=
  ∀ b : RawBeat, b.WellFormed = true → ∃ i, decode b = .ok i ∧ encode i = b

/-- R80 and 20_memory.md R54: a beat on a port that starts no operation, or wider than its port, is rejected by name. -/
def Obligations.IllFormedBeatsRejected : Prop :=
  ∀ (p : Port) (w : Nat),
    (p.startsOperation = false → decode ⟨p, w⟩ = .error (.notAnOperationPort p)) ∧
    (p.startsOperation = true → 2 ^ p.width ≤ w → decode ⟨p, w⟩ = .error (.tooWide p))

/-- Words printed in 95_test_vectors.md section 3 (P1, P2, P3, P5) decode to the operations they stand for. -/
def Obligations.PrintedWordsDecode : Prop :=
  decode ⟨.decIn, 0b010100101⟩ = .ok (.dec16 0xA5) ∧
  decode ⟨.decIn, 0b110100101⟩ = .ok (.dec8 0xA5) ∧
  decode ⟨.encIn, 0xFC18⟩ = .ok (.enc (BitVec.ofInt 16 (-1000))) ∧
  decode ⟨.wavCmd, 0x10010000100001F4000000004⟩ = .ok (.wrap true 16 1 8000 4)

/-! ### The code word -/

/-- R72: field extraction from the wire byte. The second form of each field is the one on the vector `v = ~u`. -/
def Obligations.CodeWordFields : Prop :=
  ∀ u : Byte,
    (~~~u).toNat = 255 - u.toNat ∧
    ulawQuant u = (255 - u.toNat) &&& 0x0F ∧ ulawQuant u = ((~~~u).extractLsb' 0 4).toNat ∧
    ulawSegment u = ((255 - u.toNat) &&& 0x70) >>> 4 ∧ ulawSegment u = ((~~~u).extractLsb' 4 3).toNat ∧
    ulawSign u = ((255 - u.toNat) &&& 0x80) >>> 7 ∧ ulawSign u = ((~~~u).getLsbD 7).toNat

/-- R73: field assembly, and that the two directions use the same fields. -/
def Obligations.CodeWordAssembly : Prop :=
  ∀ seg < 8, ∀ q < 16, ∀ neg : Bool,
    (seg <<< 4) ||| q ≤ 0x7F ∧
    (ulawAssemble seg q (ulawMask neg)).toNat = (((seg <<< 4) ||| q) ^^^ (if neg then 0x7F else 0xFF)) % 256 ∧
    (ulawAssemble seg q (ulawMask neg)).getLsbD 7 = !neg ∧
    ulawSegment (ulawAssemble seg q (ulawMask neg)) = seg ∧
    ulawQuant (ulawAssemble seg q (ulawMask neg)) = q ∧
    ulawSign (ulawAssemble seg q (ulawMask neg)) = if neg then 1 else 0

/-! ### The decoder -/

/-- R100: the function, its output range, and its closed form. -/
def Obligations.UlawDecodeFormula : Prop :=
  ∀ u : Byte,
    let v := 255 - u.toNat
    let Q := v &&& 0x0F
    let E := (v &&& 0x70) >>> 4
    let S := (v &&& 0x80) >>> 7
    let t := ((Q <<< 3) + 0x84) <<< E
    ulawDecode u = (if S = 1 then 0x84 - (t : Int) else (t : Int) - 0x84) ∧
    -32124 ≤ ulawDecode u ∧ ulawDecode u ≤ 32124 ∧
    132 ≤ t ∧ t ≤ 32256 ∧ t - 132 = ((2 * Q + 33) <<< (E + 2)) - 132

/-- R102 (a) to (f): range, odd symmetry, the two zeros, monotony, the step within a segment, and the magnitudes at the
ends of each segment. (g), purity, is that `ulawDecode` is a function of the byte alone. -/
def Obligations.UlawDecodeProperties : Prop :=
  (ulawDecode 0x00 = -32124 ∧ ulawDecode 0x80 = 32124 ∧ ∀ u, -32124 ≤ ulawDecode u ∧ ulawDecode u ≤ 32124) ∧
  (∀ u, ulawDecode (u ^^^ 0x80) = -ulawDecode u) ∧
  (∀ u, ulawDecode u = 0 ↔ u = 0xFF ∨ u = 0x7F) ∧
  (∀ u w : Byte, 0x80 ≤ u.toNat → u.toNat < w.toNat → ulawDecode w < ulawDecode u) ∧
  (∀ u w : Byte, u.toNat < w.toNat → w.toNat ≤ 0x7F → ulawDecode u < ulawDecode w) ∧
  (∀ u w : Byte, w.toNat = u.toNat + 1 → ulawSegment u = ulawSegment w → ulawSign u = ulawSign w →
    |ulawDecode w - ulawDecode u| = 8 * 2 ^ ulawSegment u) ∧
  (∀ u, ulawQuant u = 0 → |ulawDecode u| = 132 * 2 ^ ulawSegment u - 132) ∧
  (∀ u, ulawQuant u = 15 → |ulawDecode u| = 252 * 2 ^ ulawSegment u - 132)

/-- R108, R51: entry i of the table, read at the byte as received, is the formula applied to i. -/
def Obligations.TableMatchesFormula : Prop :=
  decLut.length = 256 ∧ ∀ u : Byte, (decRomRead u).toInt = ulawDecode u

/-- R103: the printed contents of DEC_LUT, row by row. -/
def Obligations.PrintedDecodeTable : Prop :=
  decLut.map BitVec.toInt =
  [-32124, -31100, -30076, -29052, -28028, -27004, -25980, -24956, -23932, -22908, -21884, -20860, -19836, -18812, -17788, -16764] ++
  [-15996, -15484, -14972, -14460, -13948, -13436, -12924, -12412, -11900, -11388, -10876, -10364, -9852, -9340, -8828, -8316] ++
  [-7932, -7676, -7420, -7164, -6908, -6652, -6396, -6140, -5884, -5628, -5372, -5116, -4860, -4604, -4348, -4092] ++
  [-3900, -3772, -3644, -3516, -3388, -3260, -3132, -3004, -2876, -2748, -2620, -2492, -2364, -2236, -2108, -1980] ++
  [-1884, -1820, -1756, -1692, -1628, -1564, -1500, -1436, -1372, -1308, -1244, -1180, -1116, -1052, -988, -924] ++
  [-876, -844, -812, -780, -748, -716, -684, -652, -620, -588, -556, -524, -492, -460, -428, -396] ++
  [-372, -356, -340, -324, -308, -292, -276, -260, -244, -228, -212, -196, -180, -164, -148, -132] ++
  [-120, -112, -104, -96, -88, -80, -72, -64, -56, -48, -40, -32, -24, -16, -8, 0] ++
  [32124, 31100, 30076, 29052, 28028, 27004, 25980, 24956, 23932, 22908, 21884, 20860, 19836, 18812, 17788, 16764] ++
  [15996, 15484, 14972, 14460, 13948, 13436, 12924, 12412, 11900, 11388, 10876, 10364, 9852, 9340, 8828, 8316] ++
  [7932, 7676, 7420, 7164, 6908, 6652, 6396, 6140, 5884, 5628, 5372, 5116, 4860, 4604, 4348, 4092] ++
  [3900, 3772, 3644, 3516, 3388, 3260, 3132, 3004, 2876, 2748, 2620, 2492, 2364, 2236, 2108, 1980] ++
  [1884, 1820, 1756, 1692, 1628, 1564, 1500, 1436, 1372, 1308, 1244, 1180, 1116, 1052, 988, 924] ++
  [876, 844, 812, 780, 748, 716, 684, 652, 620, 588, 556, 524, 492, 460, 428, 396] ++
  [372, 356, 340, 324, 308, 292, 276, 260, 244, 228, 212, 196, 180, 164, 148, 132] ++
  [120, 112, 104, 96, 88, 80, 72, 64, 56, 48, 40, 32, 24, 16, 8, 0]

/-- R104: the three candidates for NARROW8 are total functions into -128..127: wraparound modulo 256, saturation, and the
floor of division by 256 (on every 16-bit value). The block's own narrowing is left open (log 5). -/
def Obligations.NarrowingCandidates : Prop :=
  ∀ y : Int,
    (-128 ≤ trunc8 y ∧ trunc8 y ≤ 127 ∧ (trunc8 y - y) % 256 = 0) ∧
    (-128 ≤ sat8 y ∧ sat8 y ≤ 127 ∧ (-128 ≤ y → y ≤ 127 → sat8 y = y) ∧ (y < -128 → sat8 y = -128) ∧
      (127 < y → sat8 y = 127)) ∧
    (hi8 y * 256 ≤ y ∧ y < hi8 y * 256 + 256) ∧
    (-32768 ≤ y → y ≤ 32767 → -128 ≤ hi8 y ∧ hi8 y ≤ 127)

/-- R74, R105 to R107: the word DEC gives for a byte, for every narrowing, the block's own among them. With depth select 0
its signed value is `ulaw_decode`; with depth select 1 it is the sign extension of the narrowed 8-bit sample, so bits 15
to 8 are copies of bit 7. -/
def Obligations.DecResultWord : Prop :=
  (∀ u : Byte, (decWord u false).toInt = ulawDecode u) ∧
  (∀ u : Byte, decWord u true = decWordWith Config.narrow8 u true) ∧
  ∀ (narrow : Half → Byte) (u : Byte),
    decWordWith narrow u false = BitVec.ofInt 16 (ulawDecode u) ∧
    (decWordWith narrow u true).toInt = (narrow (BitVec.ofInt 16 (ulawDecode u))).toInt ∧
    (decWordWith narrow u true).extractLsb' 0 8 = narrow (BitVec.ofInt 16 (ulawDecode u)) ∧
    ∀ i, 8 ≤ i → i < 16 → (decWordWith narrow u true).getLsbD i = (decWordWith narrow u true).getLsbD 7

/-! ### The operations DEC16 and DEC8 -/

/-- R106, R174: where DEC16 is taken. At an edge that is no reset edge, with stage 1 free, stage 1 takes the byte with depth
select 0, stage 2 moves on by its own rule, and the beat joins the stream taken on DEC in (the model's record, log 4); nothing
else changes. -/
def Obligations.Dec16Completes : Prop :=
  ∀ (s : State) (u : Byte), s.pins.rst = false →
    (s.dec.v1 = false ∨ s.dec.v2 = false ∨ s.pins.dec.outReady = true) →
    exec (.dec16 u) s = .next
      { s with
        dec :=
          { v1 := true
            a1 := u
            d1 := false
            v2 := if s.dec.v2 = false ∨ s.pins.dec.outReady = true then s.dec.v1 else s.dec.v2
            y2 := if (s.dec.v2 = false ∨ s.pins.dec.outReady = true) ∧ s.dec.v1 = true
              then decWord s.dec.a1 s.dec.d1 else s.dec.y2
            d2 := if (s.dec.v2 = false ∨ s.pins.dec.outReady = true) ∧ s.dec.v1 = true then s.dec.d1 else s.dec.d2 }
        decStreams :=
          { taken := s.decStreams.taken ++ [⟨false, u⟩]
            given := if s.dec.v2 = true ∧ s.pins.dec.outReady = true
              then s.decStreams.given ++ [⟨s.dec.y2, s.dec.d2⟩] else s.decStreams.given } }

/-- R107, R174: where DEC8 is taken; as DEC16, with depth select 1. The streams are the model's record (log 4). -/
def Obligations.Dec8Completes : Prop :=
  ∀ (s : State) (u : Byte), s.pins.rst = false →
    (s.dec.v1 = false ∨ s.dec.v2 = false ∨ s.pins.dec.outReady = true) →
    exec (.dec8 u) s = .next
      { s with
        dec :=
          { v1 := true
            a1 := u
            d1 := true
            v2 := if s.dec.v2 = false ∨ s.pins.dec.outReady = true then s.dec.v1 else s.dec.v2
            y2 := if (s.dec.v2 = false ∨ s.pins.dec.outReady = true) ∧ s.dec.v1 = true
              then decWord s.dec.a1 s.dec.d1 else s.dec.y2
            d2 := if (s.dec.v2 = false ∨ s.pins.dec.outReady = true) ∧ s.dec.v1 = true then s.dec.d1 else s.dec.d2 }
        decStreams :=
          { taken := s.decStreams.taken ++ [⟨true, u⟩]
            given := if s.dec.v2 = true ∧ s.pins.dec.outReady = true
              then s.decStreams.given ++ [⟨s.dec.y2, s.dec.d2⟩] else s.decStreams.given } }

/-- R106, R107: what DEC16 and DEC8 give. Taken at an edge with stage 1 free, the beat is in stage 2 after the next edge at
which the host takes results (whatever the pins show otherwise), and DEC out then offers the operation's result word with
the depth select that came with the byte. The word of DEC8 is stated of the open NARROW8, whatever it is (log 5). -/
def Obligations.DecResultsLeave : Prop :=
  ∀ (s : State) (u : Byte), s.pins.rst = false →
    (s.dec.v1 = false ∨ s.dec.v2 = false ∨ s.pins.dec.outReady = true) →
    (∃ t, exec (.dec16 u) s = .next t ∧ ∀ (p : Pins) (rest : List Pins), p.rst = false → p.dec.outReady = true →
      ∃ t', step (t.setInputs (p :: rest)) = .next t' ∧
        decOutput t'.dec = some ⟨BitVec.ofInt 16 (ulawDecode u), false⟩) ∧
    (∃ t, exec (.dec8 u) s = .next t ∧ ∀ (p : Pins) (rest : List Pins), p.rst = false → p.dec.outReady = true →
      ∃ t', step (t.setInputs (p :: rest)) = .next t' ∧
        decOutput t'.dec = some ⟨(Config.narrow8 (BitVec.ofInt 16 (ulawDecode u))).signExtend 16, true⟩)

/-- R174: every register of DEC after an edge that is no reset edge, with or without a beat on offer. -/
def Obligations.DecEdgeRule : Prop :=
  ∀ s : State, s.pins.rst = false → ∃ t, step s = .next t ∧
    let s2Free := s.dec.v2 = false ∨ s.pins.dec.outReady = true
    let s1Free := s.dec.v1 = false ∨ s2Free
    (s2Free → t.dec.v2 = s.dec.v1 ∧
      (s.dec.v1 = true → t.dec.y2 = decWord s.dec.a1 s.dec.d1 ∧ t.dec.d2 = s.dec.d1) ∧
      (s.dec.v1 = false → t.dec.y2 = s.dec.y2 ∧ t.dec.d2 = s.dec.d2)) ∧
    (¬ s2Free → t.dec.v2 = s.dec.v2 ∧ t.dec.y2 = s.dec.y2 ∧ t.dec.d2 = s.dec.d2) ∧
    (s1Free → t.dec.v1 = s.pins.dec.inValid ∧
      (s.pins.dec.inValid = true → t.dec.a1 = s.pins.dec.inData ∧ t.dec.d1 = s.pins.dec.inDepth8) ∧
      (s.pins.dec.inValid = false → t.dec.a1 = s.dec.a1 ∧ t.dec.d1 = s.dec.d1)) ∧
    (¬ s1Free → t.dec.v1 = s.dec.v1 ∧ t.dec.a1 = s.dec.a1 ∧ t.dec.d1 = s.dec.d1)

/-- R173: with both stages full and the result not taken, an operation on offer waits: the edge changes nothing, in DEC and in
ENC alike. -/
def Obligations.StalledPipelinesWait : Prop :=
  (∀ (s : State) (u : Byte), s.pins.rst = false → s.dec.v1 = true → s.dec.v2 = true → s.pins.dec.outReady = false →
    exec (.dec16 u) s = .next s ∧ exec (.dec8 u) s = .next s) ∧
  (∀ (s : State) (w : Half), s.pins.rst = false → s.enc.v1 = true → s.enc.v2 = true → s.pins.enc.outReady = false →
    exec (.enc w) s = .next s)

/-- R173: the wires of the two pipelines. -/
def Obligations.PipelineWires : Prop :=
  ∀ s : State,
    (decS2Free s.dec s.pins.dec.outReady = true ↔ s.dec.v2 = false ∨ s.pins.dec.outReady = true) ∧
    (decS1Free s.dec s.pins.dec.outReady = true ↔
      s.dec.v1 = false ∨ decS2Free s.dec s.pins.dec.outReady = true) ∧
    s.readyOf .decIn = decS1Free s.dec s.pins.dec.outReady ∧
    (s.readyOf .decIn = false ↔ s.dec.v1 = true ∧ s.dec.v2 = true ∧ s.pins.dec.outReady = false) ∧
    s.validOf .decOut = s.dec.v2 ∧
    (s.dec.v2 = true → decOutput s.dec = some ⟨s.dec.y2, s.dec.d2⟩) ∧
    (encS2Free s.enc s.pins.enc.outReady = true ↔ s.enc.v2 = false ∨ s.pins.enc.outReady = true) ∧
    (encS1Free s.enc s.pins.enc.outReady = true ↔
      s.enc.v1 = false ∨ encS2Free s.enc s.pins.enc.outReady = true) ∧
    s.readyOf .encIn = encS1Free s.enc s.pins.enc.outReady ∧
    (s.readyOf .encIn = false ↔ s.enc.v1 = true ∧ s.enc.v2 = true ∧ s.pins.enc.outReady = false) ∧
    s.validOf .encOut = s.enc.v2 ∧
    (s.enc.v2 = true → encOutput s.enc = some s.enc.b2)

/-- R180 for DEC, the refinement as an invariant of every step: the results given, then what stage 2 and stage 1 hold, are the
answers to the beats taken, in order. It rests on the model's record of the streams (log 4). -/
def Obligations.DecStreamAgreementKept : Prop :=
  ∀ s t : State, s.DecAgrees → step s = .next t → t.DecAgrees

/-- R180 for DEC, draining: two edges with no input offered and the results taken give every answer and empty both stages.
R223 for DEC: under a host that never resets and is fair to DEC out, whatever it offers, every beat taken by any edge is
answered, in order, by a later one; under a host that never takes a result, a result on offer waits for ever. It rests on the
model's record of the streams (log 4). -/
def Obligations.DecPipelineDrains : Prop :=
  (∀ (s : State) (p q : Pins) (rest : List Pins), s.DecAgrees → s.inputs = p :: q :: rest →
    p.rst = false → p.dec.inValid = false → p.dec.outReady = true →
    q.rst = false → q.dec.inValid = false → q.dec.outReady = true →
    ∃ t, runEdges 2 s = .next t ∧ t.dec.v1 = false ∧ t.dec.v2 = false ∧
      t.decStreams.taken = s.decStreams.taken ∧ t.decStreams.given = s.decStreams.taken.map decAnswer) ∧
  (∀ (s : State) (host : Nat → Pins), s.DecAgrees → NoReset host → FairOn .decOut host s →
    ∀ k t, hostRun host k s = .next t → ∃ j u, k ≤ j ∧ hostRun host j s = .next u ∧
      t.decStreams.taken.map decAnswer <+: u.decStreams.given) ∧
  ∀ (s : State) (host : Nat → Pins), NoReset host → (∀ k, (host k).dec.outReady = false) → s.dec.v2 = true →
    ∀ k, ∃ t, hostRun host k s = .next t ∧ decOutput t.dec = decOutput s.dec ∧
      t.decStreams.given = s.decStreams.given

/-- R170, R180: a buffer of any length, one beat an edge into an empty DEC whose results are taken, gives one result per beat,
in order, and leaves DEC empty. The stream `given` is the model's record (log 4), and the buffer comes as inputs (log 2). -/
def Obligations.DecBufferAnswered : Prop :=
  ∀ (s : State) (buffer : List Pins) (p q : Pins) (rest : List Pins), s.dec.v1 = false → s.dec.v2 = false →
    s.inputs = buffer ++ p :: q :: rest →
    (∀ b ∈ buffer, b.rst = false ∧ b.dec.inValid = true ∧ b.dec.outReady = true) →
    p.rst = false → p.dec.inValid = false → p.dec.outReady = true →
    q.rst = false → q.dec.inValid = false → q.dec.outReady = true →
    ∃ t, runEdges (buffer.length + 2) s = .next t ∧ t.inputs = rest ∧ t.dec.v1 = false ∧ t.dec.v2 = false ∧
      t.decStreams.given = s.decStreams.given ++
        buffer.map fun b => ⟨decWord b.dec.inData b.dec.inDepth8, b.dec.inDepth8⟩

/-! ### The encoder -/

/-- R121: the biased magnitude of every sample of the port fits 16 bits unsigned with no wraparound, with its extremes. -/
def Obligations.BiasedMagnitudeRange : Prop :=
  (∀ s : Int, -32768 ≤ s → s ≤ 32767 →
    132 ≤ biasedMag s ∧ biasedMag s ≤ 32900 ∧ (BitVec.ofNat 16 (biasedMag s)).toNat = biasedMag s) ∧
  biasedMag 0 = 132 ∧ biasedMag (-1) = 133 ∧ biasedMag (-32768) = 32900 ∧ biasedMag 32767 = 32899

/-- R122, R123: the table is `2^(i+8) - 1`; the comparators form a thermometer code; the tree, the linear scan and the count of
ones agree; on magnitudes of at least 132 the segment is `floor(log2 mag) - 7`, or 8 from 32768 on, and q is the four bits
just below the leading one; a tie belongs to the lower segment; the search is monotonic. -/
def Obligations.ComparatorTree : Prop :=
  segEnd.map BitVec.toNat = (List.range 8).map (fun i => 2 ^ (i + 8) - 1) ∧
  ∀ mag : Half,
    segCompare mag = (List.range 8).map (fun i => decide (mag.toNat ≤ 2 ^ (i + 8) - 1)) ∧
    (∀ i j, i < j → j < 8 → (segCompare mag).getD i false = true → (segCompare mag).getD j false = true) ∧
    segTree mag = segScan mag.toNat segEnd ∧
    segTree mag = 8 - (segCompare mag).count true ∧
    (132 ≤ mag.toNat → mag.toNat ≤ 32767 → segTree mag = Nat.log2 mag.toNat - 7 ∧
      mag.toNat >>> (segTree mag + 3) = 16 + ((mag.toNat >>> (segTree mag + 3)) &&& 0x0F)) ∧
    (32768 ≤ mag.toNat → segTree mag = 8) ∧
    (∀ i < 8, mag.toNat = 2 ^ (i + 8) - 1 → segTree mag = i) ∧
    (∀ i < 8, mag.toNat = 2 ^ (i + 8) → segTree mag = i + 1) ∧
    (∀ mag' : Half, mag.toNat ≤ mag'.toNat → segTree mag ≤ segTree mag')

/-- R120: the function on every integer, with the segment as the least index whose threshold the biased magnitude does not
exceed. -/
def Obligations.EncodeFormula : Prop :=
  ∀ s : Int,
    let mag := (if s < 0 then 0x84 - s else s + 0x84).toNat
    let m : Byte := if s < 0 then 0x7F else 0xFF
    132 ≤ mag ∧
    ((∀ i < 8, 2 ^ (i + 8) - 1 < mag) → ulawEncode s = 0x7F ^^^ m) ∧
    (∀ seg < 8, mag ≤ 2 ^ (seg + 8) - 1 → (∀ i < seg, 2 ^ (i + 8) - 1 < mag) →
      ulawEncode s = BitVec.ofNat 8 ((seg <<< 4) ||| ((mag >>> (seg + 3)) &&& 0x0F)) ^^^ m)

/-- R124: the clamp, that it continues the top step, and the largest errors of a decode after an encode. -/
def Obligations.EncodeClamp : Prop :=
  (∀ s : Int, 32768 ≤ biasedMag s →
    segScan (biasedMag s) segEnd = 8 ∧ ulawEncode s = if s < 0 then 0x00 else 0x80) ∧
  (∀ s : Int, -32768 ≤ s → s ≤ 32767 → (32768 ≤ biasedMag s ↔ 32636 ≤ s ∨ s ≤ -32636)) ∧
  (∀ s : Int, 31612 ≤ s → s ≤ 32635 →
    segScan (biasedMag s) segEnd = 7 ∧ (biasedMag s >>> 10) &&& 0x0F = 15 ∧ ulawEncode s = 0x80) ∧
  (∀ s : Int, -32635 ≤ s → s ≤ -31612 →
    segScan (biasedMag s) segEnd = 7 ∧ (biasedMag s >>> 10) &&& 0x0F = 15 ∧ ulawEncode s = 0x00) ∧
  |ulawDecode 0x80| = 32124 ∧ |ulawDecode 0x00| = 32124 ∧
  (∀ s : Int, -32768 ≤ s → s ≤ 32767 → |ulawDecode (ulawEncode s) - s| ≤ 644) ∧
  |ulawDecode (ulawEncode (-32768)) - (-32768)| = 644 ∧ |ulawDecode (ulawEncode 32767) - 32767| = 643

/-- R126: what samples reach each code, and how far a decode after an encode can be from the sample. -/
def Obligations.CodeIntervals : Prop :=
  (∀ E : Nat, E < 8 → ∀ Q : Nat, Q < 16 → ∀ s : Int,
    let lo : Int := (16 + (Q : Int)) * 2 ^ (E + 3)
    let hi : Int := (17 + (Q : Int)) * 2 ^ (E + 3) - 1
    (segScan (biasedMag s) segEnd = E ∧ (biasedMag s >>> (E + 3)) &&& 0x0F = Q ↔
      lo ≤ biasedMag s ∧ biasedMag s ≤ hi) ∧
    (max 0 (lo - 132) ≤ s → s ≤ hi - 132 → ulawEncode s = ~~~(BitVec.ofNat 8 ((E <<< 4) ||| Q))) ∧
    (132 - hi ≤ s → s ≤ min (-1) (132 - lo) → ulawEncode s = BitVec.ofNat 8 ((E <<< 4) ||| Q) ^^^ 0x7F) ∧
    ulawDecode (~~~(BitVec.ofNat 8 ((E <<< 4) ||| Q))) = (2 * (Q : Int) + 33) * 2 ^ (E + 2) - 132 ∧
    (2 * (Q : Int) + 33) * 2 ^ (E + 2) - 132 = lo - 132 + 2 ^ (E + 2) ∧
    (lo ≤ biasedMag s → biasedMag s ≤ hi → |ulawDecode (ulawEncode s) - s| ≤ 2 ^ (E + 2))) ∧
  (∀ s : Int, ulawEncode s = 0xFF ↔ 0 ≤ s ∧ s ≤ 3) ∧
  (∀ s : Int, ulawEncode s = 0x7F ↔ -3 ≤ s ∧ s ≤ -1) ∧
  (∀ s s' : Int, s ≤ s' → ulawDecode (ulawEncode s) ≤ ulawDecode (ulawEncode s')) ∧
  (∀ s : Int, ulawEncode s ≠ 0xFF → ulawEncode s ≠ 0x7F →
    ulawDecode (ulawEncode (-s)) = -ulawDecode (ulawEncode s))

/-- R127: encode after decode is the identity on all codes but 0x7F, and the decoded values agree on all 256. -/
def Obligations.CodecRoundTrip : Prop :=
  ∀ u : Byte,
    ulawEncode (ulawDecode u) = (if u = 0x7F then 0xFF else u) ∧
    ulawDecode (ulawEncode (ulawDecode u)) = ulawDecode u

/-! ### The operation ENC -/

/-- R125, R175: where ENC is taken. Stage 1 takes the sign and the biased magnitude of the sample, stage 2 moves on by its own
rule, the sample joins the stream taken on ENC in (the model's record, log 4); nothing else changes. -/
def Obligations.EncCompletes : Prop :=
  ∀ (s : State) (w : Half), s.pins.rst = false →
    (s.enc.v1 = false ∨ s.enc.v2 = false ∨ s.pins.enc.outReady = true) →
    exec (.enc w) s = .next
      { s with
        enc :=
          { v1 := true
            neg1 := w.getLsbD 15
            mag1 := BitVec.ofInt 16 (if w.toInt < 0 then 0x84 - w.toInt else w.toInt + 0x84)
            v2 := if s.enc.v2 = false ∨ s.pins.enc.outReady = true then s.enc.v1 else s.enc.v2
            b2 := if (s.enc.v2 = false ∨ s.pins.enc.outReady = true) ∧ s.enc.v1 = true
              then encCode s.enc.mag1 s.enc.neg1 else s.enc.b2 }
        encStreams :=
          { taken := s.encStreams.taken ++ [w]
            given := if s.enc.v2 = true ∧ s.pins.enc.outReady = true
              then s.encStreams.given ++ [s.enc.b2] else s.encStreams.given } }

/-- R125: what ENC gives. Taken at an edge with stage 1 free, the sample is in stage 2 as its μ-law byte after the next edge at
which the host takes results, and ENC out then offers `ulaw_encode(sint_16(w))`. -/
def Obligations.EncResultLeaves : Prop :=
  ∀ (s : State) (w : Half), s.pins.rst = false →
    (s.enc.v1 = false ∨ s.enc.v2 = false ∨ s.pins.enc.outReady = true) →
    ∃ t, exec (.enc w) s = .next t ∧ ∀ (p : Pins) (rest : List Pins), p.rst = false → p.enc.outReady = true →
      ∃ t', step (t.setInputs (p :: rest)) = .next t' ∧ encOutput t'.enc = some (ulawEncode w.toInt)

/-- R175: every register of ENC after an edge that is no reset edge; `enc_code` itself; and that on what stage 1 holds of a
sample it is `ulaw_encode` of the sample. -/
def Obligations.EncEdgeRule : Prop :=
  (∀ s : State, s.pins.rst = false → ∃ t, step s = .next t ∧
    let s2Free := s.enc.v2 = false ∨ s.pins.enc.outReady = true
    let s1Free := s.enc.v1 = false ∨ s2Free
    let x := s.pins.enc.inData.toInt
    (s2Free → t.enc.v2 = s.enc.v1 ∧ (s.enc.v1 = true → t.enc.b2 = encCode s.enc.mag1 s.enc.neg1) ∧
      (s.enc.v1 = false → t.enc.b2 = s.enc.b2)) ∧
    (¬ s2Free → t.enc.v2 = s.enc.v2 ∧ t.enc.b2 = s.enc.b2) ∧
    (s1Free → t.enc.v1 = s.pins.enc.inValid ∧
      (s.pins.enc.inValid = true → t.enc.neg1 = decide (x < 0) ∧ t.enc.neg1 = s.pins.enc.inData.getLsbD 15 ∧
        t.enc.mag1 = BitVec.ofInt 16 (if x < 0 then 0x84 - x else x + 0x84)) ∧
      (s.pins.enc.inValid = false → t.enc.neg1 = s.enc.neg1 ∧ t.enc.mag1 = s.enc.mag1)) ∧
    (¬ s1Free → t.enc.v1 = s.enc.v1 ∧ t.enc.neg1 = s.enc.neg1 ∧ t.enc.mag1 = s.enc.mag1)) ∧
  (∀ (mag : Half) (neg : Bool),
    let m : Byte := if neg then 0x7F else 0xFF
    ((∀ i < 8, (segEnd.getD i 0).toNat < mag.toNat) → encCode mag neg = 0x7F ^^^ m) ∧
    (∀ seg < 8, mag.toNat ≤ (segEnd.getD seg 0).toNat → (∀ i < seg, (segEnd.getD i 0).toNat < mag.toNat) →
      encCode mag neg = BitVec.ofNat 8 ((seg <<< 4) ||| ((mag.toNat >>> (seg + 3)) &&& 0x0F)) ^^^ m)) ∧
  (∀ w : Half, encCode (BitVec.ofNat 16 (biasedMag w.toInt)) (decide (w.toInt < 0)) = ulawEncode w.toInt)

/-- R180 for ENC, the refinement as an invariant of every step. It rests on the model's record of the streams (log 4). -/
def Obligations.EncStreamAgreementKept : Prop :=
  ∀ s t : State, s.EncAgrees → step s = .next t → t.EncAgrees

/-- R180 for ENC, draining, and R223 for ENC: under a host that never resets and is fair to ENC out every sample taken is
answered, in order; under a host that never takes a byte, a byte on offer waits for ever. It rests on the model's record of the
streams (log 4). -/
def Obligations.EncPipelineDrains : Prop :=
  (∀ (s : State) (p q : Pins) (rest : List Pins), s.EncAgrees → s.inputs = p :: q :: rest →
    p.rst = false → p.enc.inValid = false → p.enc.outReady = true →
    q.rst = false → q.enc.inValid = false → q.enc.outReady = true →
    ∃ t, runEdges 2 s = .next t ∧ t.enc.v1 = false ∧ t.enc.v2 = false ∧
      t.encStreams.taken = s.encStreams.taken ∧ t.encStreams.given = s.encStreams.taken.map encAnswer) ∧
  (∀ (s : State) (host : Nat → Pins), s.EncAgrees → NoReset host → FairOn .encOut host s →
    ∀ k t, hostRun host k s = .next t → ∃ j u, k ≤ j ∧ hostRun host j s = .next u ∧
      t.encStreams.taken.map encAnswer <+: u.encStreams.given) ∧
  ∀ (s : State) (host : Nat → Pins), NoReset host → (∀ k, (host k).enc.outReady = false) → s.enc.v2 = true →
    ∀ k, ∃ t, hostRun host k s = .next t ∧ encOutput t.enc = encOutput s.enc ∧
      t.encStreams.given = s.encStreams.given

/-- R170, R180: a sequence of samples of any length, one an edge into an empty ENC whose results are taken, gives one byte per
sample, in order, and leaves ENC empty. The stream `given` is the model's record (log 4), and the samples come as inputs
(log 2). -/
def Obligations.EncBufferAnswered : Prop :=
  ∀ (s : State) (buffer : List Pins) (p q : Pins) (rest : List Pins), s.enc.v1 = false → s.enc.v2 = false →
    s.inputs = buffer ++ p :: q :: rest →
    (∀ b ∈ buffer, b.rst = false ∧ b.enc.inValid = true ∧ b.enc.outReady = true) →
    p.rst = false → p.enc.inValid = false → p.enc.outReady = true →
    q.rst = false → q.enc.inValid = false → q.enc.outReady = true →
    ∃ t, runEdges (buffer.length + 2) s = .next t ∧ t.inputs = rest ∧ t.enc.v1 = false ∧ t.enc.v2 = false ∧
      t.encStreams.given = s.encStreams.given ++ buffer.map fun b => ulawEncode b.enc.inData.toInt

/-- R28, R121: every step keeps the magnitude of a full stage 1 in 132..32900. -/
def Obligations.MagnitudeRangeKept : Prop :=
  ∀ s t : State, s.MagInRange → step s = .next t → t.MagInRange

/-! ### The operation WRAP -/

/-- R140, R151: where WRAP starts a frame. In IDLE, at an edge that is no reset edge, a command whose length gives a frame is
latched, the sequencer enters HEADER at index 0, the command joins the stream taken (the model's record, log 4); nothing else
changes. -/
def Obligations.WrapCompletes : Prop :=
  ∀ (s : State) (le : Bool) (bits channels : Half) (rate len : Word), s.pins.rst = false → s.wav.state = .idle →
    len.toNat ≤ 0xFFFFFFD3 →
    exec (.wrap le bits channels rate len) s = .next
      { s with
        wav := { state := .header, idx := 0, rem := len, rate := rate, ch := channels, bits := bits, le := le }
        wavStreams := { s.wavStreams with cmds := s.wavStreams.cmds ++ [⟨le, bits, channels, rate, len⟩] } }

/-- R190: the fault. In IDLE a command whose length overflows is latched and the sequencer enters FAULT; after every number of
edges that are no reset edges `wav_err` is 1, no command and no payload is ready to be taken and no byte is offered; DEC and
ENC are not touched by the entry (R194); cause number 1. It is raised exactly when the RIFF size `44 + N` does not fit 32 bits,
and by WRAP only, at the edge its command fires. That the fault is a next state, with WAV in FAULT, is the model's reading
(log 9), and the streams are its record (log 4). -/
def Obligations.WrapLengthOverflow : Prop :=
  Fault.wavLengthOverflow.cause = 1 ∧
  (∀ len : Word, len.toNat > 0xFFFFFFD3 ↔ 44 + len.toNat ≥ 2 ^ 32) ∧
  (∀ (s t : State) (le : Bool) (bits channels : Half) (rate len : Word), s.pins.rst = false → s.wav.state = .idle →
    exec (.wrap le bits channels rate len) s = .next t →
    (t.faultOf = some .wavLengthOverflow ↔ len.toNat > 0xFFFFFFD3)) ∧
  (∀ s t : State, step s = .next t → t.wav.state = .fault → s.wav.state ≠ .fault →
    s.fires .wavCmd = true ∧ s.pins.wav.cmdLen.toNat > 0xFFFFFFD3) ∧
  ∀ (s : State) (le : Bool) (bits channels : Half) (rate len : Word), s.pins.rst = false → s.wav.state = .idle →
    len.toNat > 0xFFFFFFD3 →
    ∃ t, exec (.wrap le bits channels rate len) s = .next t ∧
      t.wav = { state := .fault, idx := 0, rem := len, rate := rate, ch := channels, bits := bits, le := le } ∧
      t.dec = s.dec ∧ t.enc = s.enc ∧ t.wavStreams.out = s.wavStreams.out ∧
      t.wavStreams.payload = s.wavStreams.payload ∧ t.faultOf = some .wavLengthOverflow ∧
      ∀ (k : Nat) (inputs : List Pins), k ≤ inputs.length → (∀ p ∈ inputs, p.rst = false) →
        ∃ u, runEdges k (t.setInputs inputs) = .next u ∧ u.wav = t.wav ∧ u.wavStreams = t.wavStreams ∧
          u.wavErr = true ∧ u.readyOf .wavCmd = false ∧ u.readyOf .wavIn = false ∧ u.validOf .wavOut = false

/-- R151, R156: a command on offer while the unit is not in IDLE waits: the edge is what it is with no command on offer, and no
command joins the stream taken (the model's record, log 4). -/
def Obligations.WrapWaitsWhileBusy : Prop :=
  ∀ (s : State) (le : Bool) (bits channels : Half) (rate len : Word), s.pins.rst = false → s.wav.state ≠ .idle →
    exec (.wrap le bits channels rate len) s = .next (wavEdge none s) ∧
    (wavEdge none s).wavStreams.cmds = s.wavStreams.cmds ∧ s.readyOf .wavCmd = false

/-- R151: IDLE, and taking a command; the command port is looked at in no other state. -/
def Obligations.WavIdleEdge : Prop :=
  (∀ s : State, s.pins.rst = false → s.wav.state = .idle → ∃ t, step s = .next t ∧
    (s.pins.wav.cmdValid = false → t.wav = s.wav) ∧
    (s.pins.wav.cmdValid = true → t.wav =
      { state := if s.pins.wav.cmdLen.toNat > 0xFFFFFFD3 then .fault else .header
        idx := 0
        rem := s.pins.wav.cmdLen
        rate := s.pins.wav.cmdRate
        ch := s.pins.wav.cmdChannels
        bits := s.pins.wav.cmdBits
        le := s.pins.wav.cmdLe })) ∧
  (∀ (s : State) (c : Option WrapCmd), s.pins.rst = false → s.wav.state ≠ .idle → wavEdge c s = wavEdge none s)

/-- R152: HEADER. The byte that leaves joins `wavStreams.out`, the model's record of the output stream (log 4). -/
def Obligations.WavHeaderEdge : Prop :=
  ∀ s : State, s.pins.rst = false → s.wav.state = .header → ∃ t, step s = .next t ∧
    (s.pins.wav.outReady = false → t.wav = s.wav ∧ t.wavStreams.out = s.wavStreams.out) ∧
    (s.pins.wav.outReady = true →
      (t.wavStreams.out = s.wavStreams.out ++
        [⟨hdrByte s.wav.rem.toNat s.wav.rate.toNat s.wav.ch.toNat s.wav.bits.toNat s.wav.le s.wav.idx.toNat,
          decide (s.wav.idx.toNat = 43 ∧ s.wav.rem.toNat = 0)⟩]) ∧
      t.wav = { s.wav with
        state := if s.wav.idx.toNat < 43 then .header else if s.wav.rem.toNat = 0 then .idle else .payload
        idx := if s.wav.idx.toNat < 43 then s.wav.idx + 1 else s.wav.idx })

/-- R153: PAYLOAD; that it is entered with at least one byte to pass and exactly that many pass before the return to IDLE; and
that payload bytes are taken in no other state. What passes is said of `wavStreams.payload` and `wavStreams.out`, the model's
record of the streams (log 4). -/
def Obligations.WavPayloadEdge : Prop :=
  (∀ s : State, s.pins.rst = false → s.wav.state = .payload → ∃ t, step s = .next t ∧
    (s.pins.wav.inValid = true ∧ s.pins.wav.outReady = true →
      t.wavStreams.payload = s.wavStreams.payload ++ [s.pins.wav.inData] ∧
      t.wavStreams.out = s.wavStreams.out ++ [⟨s.pins.wav.inData, decide (s.wav.rem.toNat = 1)⟩] ∧
      t.wav = { s.wav with
        state := if s.wav.rem.toNat = 1 then .idle else .payload
        rem := if s.wav.rem.toNat = 1 then s.wav.rem else s.wav.rem - 1 }) ∧
    (¬ (s.pins.wav.inValid = true ∧ s.pins.wav.outReady = true) →
      t.wav = s.wav ∧ t.wavStreams.payload = s.wavStreams.payload ∧ t.wavStreams.out = s.wavStreams.out)) ∧
  (∀ s t : State, step s = .next t → t.wav.state = .payload → s.wav.state ≠ .payload →
    s.wav.state = .header ∧ t.wav.rem = s.wav.rem ∧ 1 ≤ t.wav.rem.toNat) ∧
  (∀ (s : State) (ps rest : List Pins), s.wav.state = .payload → 1 ≤ s.wav.rem.toNat → s.inputs = ps ++ rest →
    ps.length = s.wav.rem.toNat → (∀ h ∈ ps, h.rst = false ∧ h.wav.outReady = true ∧ h.wav.inValid = true) →
    ∃ t, runEdges ps.length s = .next t ∧ t.wav.state = .idle ∧
      t.wavStreams.payload = s.wavStreams.payload ++ ps.map (fun h => h.wav.inData)) ∧
  (∀ s : State, s.pins.rst = false → s.wav.state ≠ .payload →
    s.readyOf .wavIn = false ∧ ∃ t, step s = .next t ∧ t.wavStreams.payload = s.wavStreams.payload)

/-- R154, R195, R210: in FAULT an edge that is no reset edge changes nothing in WAV, whatever the inputs; a reset edge leaves the
state. That nothing passes is said of `wavStreams`, the model's record (log 4). -/
def Obligations.WavFaultEdge : Prop :=
  ∀ s : State, s.wav.state = .fault → ∃ t, step s = .next t ∧
    (s.pins.rst = false → t.wav = s.wav ∧ t.wavStreams = s.wavStreams ∧ t.wavErr = true) ∧
    (s.pins.rst = true → t.wav.state = .idle ∧ t.wavErr = false)

/-- R150: the outputs of WAV as functions of `wav_state`, and that in PAYLOAD a payload beat and an output beat happen at the
same edge or not at all; `none` is an output with no value (log 7). -/
def Obligations.WavOutputs : Prop :=
  ∀ s : State,
    let out := wavOutput s.pins.wav.inValid s.pins.wav.inData s.wav
    (s.wav.state = .idle →
      s.readyOf .wavCmd = true ∧ s.readyOf .wavIn = false ∧ out = none ∧ s.wavErr = false) ∧
    (s.wav.state = .header →
      s.readyOf .wavCmd = false ∧ s.readyOf .wavIn = false ∧ s.wavErr = false ∧
      out = some ⟨hdrByte s.wav.rem.toNat s.wav.rate.toNat s.wav.ch.toNat s.wav.bits.toNat s.wav.le s.wav.idx.toNat,
        decide (s.wav.idx.toNat = 43 ∧ s.wav.rem.toNat = 0)⟩) ∧
    (s.wav.state = .payload →
      s.readyOf .wavCmd = false ∧ s.readyOf .wavIn = s.pins.wav.outReady ∧ s.wavErr = false ∧
      out = (if s.pins.wav.inValid then some ⟨s.pins.wav.inData, decide (s.wav.rem.toNat = 1)⟩ else none) ∧
      s.fires .wavIn = s.fires .wavOut) ∧
    (s.wav.state = .fault →
      s.readyOf .wavCmd = false ∧ s.readyOf .wavIn = false ∧ out = none ∧ s.wavErr = true) ∧
    s.validOf .wavOut = out.isSome

/-- R232: every transition of `wav_state`, and no other. -/
def Obligations.SequencerTransitions : Prop :=
  ∀ s t : State, step s = .next t → t.wav.state =
    if s.pins.rst then .idle
    else
      match s.wav.state with
      | .idle =>
        if s.pins.wav.cmdValid = false then .idle
        else if s.pins.wav.cmdLen.toNat ≤ 0xFFFFFFD3 then .header else .fault
      | .header =>
        if s.pins.wav.outReady = false ∨ s.wav.idx.toNat < 43 then .header
        else if s.wav.rem.toNat = 0 then .idle else .payload
      | .payload =>
        if (s.pins.wav.inValid = true ∧ s.pins.wav.outReady = true) ∧ s.wav.rem.toNat = 1 then .idle else .payload
      | .fault => .fault

/-- R141 to R143: the layout of the header with its computed fields, the widths that hold them, and that the byte offered in
HEADER is byte `wav_idx` of it. -/
def Obligations.HeaderLayout : Prop :=
  ∀ (n rate ch bits : Nat) (le : Bool),
    wavHeader n rate ch bits le =
      [0x52, 0x49, 0x46, 0x46] ++ ser le 4 (44 + n) ++ [0x57, 0x41, 0x56, 0x45] ++ [0x66, 0x6D, 0x74, 0x20] ++
      ser le 4 16 ++ ser le 2 1 ++ ser le 2 ch ++ ser le 4 rate ++ ser le 4 (ch * rate * bits / 8 % 2 ^ 32) ++
      ser le 2 (ch * bits / 8 % 2 ^ 16) ++ ser le 2 bits ++ [0x64, 0x61, 0x74, 0x61] ++ ser le 4 n ∧
    (wavHeader n rate ch bits le).length = 44 ∧
    (n ≤ 0xFFFFFFD3 → 44 + n < 2 ^ 32) ∧
    (ch < 2 ^ 16 → rate < 2 ^ 32 → bits < 2 ^ 16 → ch * rate * bits < 2 ^ 64 ∧ ch * bits < 2 ^ 32) ∧
    ∀ r : WavRegs, r.idx.toNat ≤ 43 →
      (wavHeader r.rem.toNat r.rate.toNat r.ch.toNat r.bits.toNat r.le)[r.idx.toNat]? = some (wavHdrNow r)

/-- R144: the serialisation of a field: its bytes, that the two orders are each other's reverse, and that no bit of a value
that fits its field is lost; and in the header each integer field is reversed within its own bytes while the four literals
are the same for both orders. The fields are the nine of R143 (log 13). -/
def Obligations.FieldSerialisation : Prop :=
  ∀ (k x : Nat),
    (∀ le, (ser le k x).length = k) ∧
    (∀ j < k, (ser true k x).getD j 0 = BitVec.ofNat 8 ((x >>> (8 * j)) &&& 0xFF) ∧
      (ser false k x).getD j 0 = BitVec.ofNat 8 ((x >>> (8 * (k - 1 - j))) &&& 0xFF)) ∧
    ser false k x = (ser true k x).reverse ∧
    (x < 2 ^ (8 * k) → ((List.range k).map fun j => ((ser true k x).getD j 0).toNat * 2 ^ (8 * j)).sum = x) ∧
    ∀ (n rate ch bits : Nat),
      let field (le : Bool) (offset width : Nat) := ((wavHeader n rate ch bits le).drop offset).take width
      (∀ f ∈ [(4, 4), (16, 4), (20, 2), (22, 2), (24, 4), (28, 4), (32, 2), (34, 2), (40, 4)],
        field false f.1 f.2 = (field true f.1 f.2).reverse) ∧
      ∀ offset ∈ [0, 8, 12, 36], field false offset 4 = field true offset 4

/-- R140, R147: the frame of a payload is the header, 44 bytes, and then the payload unchanged; it exists exactly when the
length does not overflow. -/
def Obligations.FrameBytes : Prop :=
  ∀ (p : List Byte) (rate ch bits : Nat) (le : Bool),
    (44 + p.length ≤ 0xFFFFFFFF → ∃ f, wavWrap p rate ch bits le = .ok f ∧ f.length = 44 + p.length ∧
      f.take 44 = wavHeader p.length rate ch bits le ∧ ∀ j, f[44 + j]? = p[j]?) ∧
    (44 + p.length > 0xFFFFFFFF → wavWrap p rate ch bits le = .error .wavLengthOverflow)

/-- R160, the refinement of WAV as an invariant of every step: the output stream is the frames of the commands taken, the last
as far as the sequencer has come. It rests on the model's record of the streams (log 4). -/
def Obligations.WavStreamAgreementKept : Prop :=
  ∀ s t : State, s.WavAgrees → step s = .next t → t.WavAgrees

/-- R160: the unit re-enters IDLE when the host takes 44 + N output beats and offers N payload beats. From IDLE, one command
edge (R151), 44 edges at which the host is ready (R152) and N at which it also offers payload (R153) bring out the whole frame,
`last` on its final byte alone, for every length and every payload that give a frame. R223 for WAV: under a host that never
resets, is fair to WAV out, feeds the payload and keeps it steady (R215), the unit is back in IDLE after any moment not in FAULT;
under a host that never takes a byte, or in PAYLOAD never offers one, it waits for ever (R214). The streams are the model's
record (log 4), and what the host drives is its list of inputs (log 2). -/
def Obligations.WrapFrameLeaves : Prop :=
  (∀ (s : State) (c : WrapCmd) (p : Pins) (hs ps rest : List Pins), s.wav.state = .idle →
    s.inputs = p :: (hs ++ (ps ++ rest)) → p.rst = false → p.wrapCmd = some c →
    hs.length = 44 → (∀ h ∈ hs, h.rst = false ∧ h.wav.outReady = true) →
    ps.length = c.len.toNat → (∀ h ∈ ps, h.rst = false ∧ h.wav.outReady = true ∧ h.wav.inValid = true) →
    c.len.toNat ≤ 0xFFFFFFD3 →
    ∃ t, runEdges (45 + c.len.toNat) s = .next t ∧ t.inputs = rest ∧ t.wav.state = .idle ∧
      t.wavStreams.cmds = s.wavStreams.cmds ++ [c] ∧
      t.wavStreams.payload = s.wavStreams.payload ++ ps.map (fun h => h.wav.inData) ∧
      t.wavStreams.out = s.wavStreams.out ++
        markLast (wavHeader c.len.toNat c.rate.toNat c.channels.toNat c.bits.toNat c.le ++
          ps.map (fun h => h.wav.inData))) ∧
  (∀ (s : State) (host : Nat → Pins), NoReset host → FairOn .wavOut host s → FeedsPayload host s →
    SteadyPayload host s → ∀ k t, hostRun host k s = .next t → t.wav.state ≠ .fault →
    ∃ j u, k ≤ j ∧ hostRun host j s = .next u ∧ u.wav.state = .idle) ∧
  (∀ (s : State) (host : Nat → Pins), NoReset host → (∀ k, (host k).wav.outReady = false) →
    s.wav.state = .header ∨ s.wav.state = .payload → ∀ k, ∃ t, hostRun host k s = .next t ∧ t.wav = s.wav) ∧
  ∀ (s : State) (host : Nat → Pins), NoReset host → (∀ k, (host k).wav.inValid = false) → s.wav.state = .payload →
    ∀ k, ∃ t, hostRun host k s = .next t ∧ t.wav = s.wav

/-- R155: `last` is 1 on exactly one beat of each frame, the one that carries byte 43 + N; so in every state in which the
streams (the model's record, log 4) agree there is one `last` for each frame that has left whole. -/
def Obligations.LastOncePerFrame : Prop :=
  (∀ (c : WrapCmd) (p : List Byte), p.length = c.len.toNat → c.len.toNat ≤ 0xFFFFFFD3 →
    (frameOf c p).length = 44 + c.len.toNat ∧
    ∀ i (h : i < (frameOf c p).length), ((frameOf c p)[i]).last = decide (i = 43 + c.len.toNat)) ∧
  (∀ s : State, s.WavAgrees →
    (s.wavStreams.out.filter fun b => b.last).length =
      if s.wav.state = .idle then s.wavStreams.cmds.length else s.wavStreams.cmds.length - 1)

/-! ### The whole block -/

/-- R210: the reset edge. The four valid bits become 0 and `wav_state` IDLE whatever the inputs show, no other register is
written and no beat fires; a further reset edge changes no register. That the registers R39 leaves unspecified keep the values
they had is the model's reading of "no other register is written" (log 14). -/
def Obligations.ResetEdge : Prop :=
  ∀ s : State, s.pins.rst = true →
    (∀ p, s.fires p = false) ∧
    ∃ t, step s = .next t ∧
      t.dec = { s.dec with v1 := false, v2 := false } ∧
      t.enc = { s.enc with v1 := false, v2 := false } ∧
      t.wav = { s.wav with state := .idle } ∧
      (t.pins.rst = true → ∃ t', step t = .next t' ∧ t'.dec = t.dec ∧ t'.enc = t.enc ∧ t'.wav = t.wav)

/-- R39, R221: the state after a reset edge: valid bits and sequencer, the outputs, quiescence, and the invariants. The values
of the registers R39 leaves unspecified (log 1) and of the inputs (log 2, log 3) are the model's and are not stated; the
invariants speak of the model's record of the streams (log 4). -/
def Obligations.ResetState : Prop :=
  State.reset.Quiescent ∧
  (∀ (inputs : List Pins) (held : Pins), ((State.reset.setInputs inputs).setHeld held).shown =
    { decOut := none, encOut := none, wavOut := none, decInReady := true, encInReady := true, wavCmdReady := true,
      wavInReady := false, wavErr := false }) ∧
  State.reset.DecAgrees ∧ State.reset.EncAgrees ∧ State.reset.WavAgrees ∧ State.reset.MagInRange

/-- R7: every operation is total: every step and every operation answers a next state, in every state, for all operands. R7
says that a WRAP whose length overflows is rejected; that the rejection is a next state too, with WAV in FAULT (R190, R194), is
the model's reading (log 9). -/
def Obligations.EveryStepAnswers : Prop :=
  ∀ s : State, (∃ t, step s = .next t) ∧ ∀ i : Instr, ∃ t, exec i s = .next t

/-- R80: a step runs the decoded operations. Each unit whose operation port shows a beat executes what that beat's word decodes
to, each other unit runs its edge with nothing on offer, and then the inputs move on. That the three units' edges are taken one
after another is the model's reading of R30 and R61 (log 18), and that the list of inputs then moves on is its choice (log 2). -/
def Obligations.StepRunsTheOfferedOperations : Prop :=
  ∀ (s : State) (i j k : Instr),
    decode ⟨.decIn, (decBeatWord s.pins.dec.inDepth8 s.pins.dec.inData).toNat⟩ = .ok i →
    decode ⟨.encIn, s.pins.enc.inData.toNat⟩ = .ok j →
    decode ⟨.wavCmd, (wrapCmdWord s.pins.wav.cmdLe s.pins.wav.cmdBits s.pins.wav.cmdChannels s.pins.wav.cmdRate
      s.pins.wav.cmdLen).toNat⟩ = .ok k →
    step s =
      andThen (if s.pins.dec.inValid then exec i s else .next (decEdge none s)) fun a =>
      andThen (if s.pins.enc.inValid then exec j a else .next (encEdge none a)) fun b =>
      andThen (if s.pins.wav.cmdValid then exec k b else .next (wavEdge none b)) fun c => .next c.advance

/-- R80: a word of the opcode table, placed by `State.withFetchWord`, is the one operation the next step runs; the other two
units run their edges with nothing on offer. The port of a table word is the model's choice (log 11), and so is that a placed word
is offered with no reset and no other operation (log 12). -/
def Obligations.FetchedWordRuns : Prop :=
  ∀ (s : State) (nbits w : Nat) (i : Instr), decodeTableWord nbits w = some i →
    let f := s.withFetchWord nbits w
    f.pins.rst = false ∧
    match i with
    | .dec16 u =>
      step f = andThen (exec (.dec16 u) f) fun t => .next (wavEdge none (encEdge none t)).advance
    | .dec8 u =>
      step f = andThen (exec (.dec8 u) f) fun t => .next (wavEdge none (encEdge none t)).advance
    | .enc x =>
      step f = andThen (exec (.enc x) (decEdge none f)) fun t => .next (wavEdge none t).advance
    | .wrap le bits ch rate len =>
      step f = andThen (exec (.wrap le bits ch rate len) (encEdge none (decEdge none f))) fun t => .next t.advance

/-- R221, R202: a quiescent block to which nothing is offered shows no output beat, takes nothing and stays quiescent: an edge, a
reset edge included, changes no register, and one that is no reset edge no stream (the model's record, log 4); a run that has
ended well has still done so after the edge. R223: under a fair host that never resets and keeps its payload bytes steady (R215),
the block becomes quiescent once the host offers no further operation, unless WAV is in FAULT. -/
def Obligations.QuiescentBlockHolds : Prop :=
  (∀ s : State, s.Quiescent → s.pins.Silent →
    s.shown.decOut = none ∧ s.shown.encOut = none ∧ s.shown.wavOut = none ∧ (∀ p, s.fires p = false) ∧
    ∃ t, step s = .next t ∧ t.Quiescent ∧ t.dec = s.dec ∧ t.enc = s.enc ∧ t.wav = s.wav ∧
      (s.pins.rst = false →
        t.decStreams = s.decStreams ∧ t.encStreams = s.encStreams ∧ t.wavStreams = s.wavStreams) ∧
      (s.EndedWell → t.EndedWell)) ∧
  ∀ (s : State) (host : Nat → Pins), NoReset host → FairHost host s → SteadyPayload host s →
    ∀ n t, hostRun host n s = .next t → t.wav.state ≠ .fault →
    (∀ k, n ≤ k → (host k).dec.inValid = false ∧ (host k).enc.inValid = false ∧ (host k).wav.cmdValid = false) →
    ∃ j u, n ≤ j ∧ hostRun host j s = .next u ∧ u.Quiescent

/-- R8, R30: the frame of the four operations. DEC16 and DEC8 change nothing of ENC and WAV, ENC nothing of DEC and WAV, WRAP
nothing of DEC and ENC, and none changes what the inputs are to show (log 2, log 3). The streams are the model's record
(log 4). -/
def Obligations.OperationFrames : Prop :=
  ∀ s t : State,
    (∀ u, exec (.dec16 u) s = .next t ∨ exec (.dec8 u) s = .next t →
      t.enc = s.enc ∧ t.wav = s.wav ∧ t.encStreams = s.encStreams ∧ t.wavStreams = s.wavStreams ∧
      t.inputs = s.inputs ∧ t.held = s.held) ∧
    (∀ w, exec (.enc w) s = .next t →
      t.dec = s.dec ∧ t.wav = s.wav ∧ t.decStreams = s.decStreams ∧ t.wavStreams = s.wavStreams ∧
      t.inputs = s.inputs ∧ t.held = s.held) ∧
    (∀ le bits channels rate len, exec (.wrap le bits channels rate len) s = .next t →
      t.dec = s.dec ∧ t.enc = s.enc ∧ t.decStreams = s.decStreams ∧ t.encStreams = s.encStreams ∧
      t.inputs = s.inputs ∧ t.held = s.held)

/-- R30, R8: a unit's registers and streams after a step depend on that unit's registers, streams and pins and on `rst`, and on
nothing of the other units. The streams are the model's record (log 4). -/
def Obligations.UnitsIndependent : Prop :=
  ∀ s s' t t' : State, step s = .next t → step s' = .next t' → s.pins.rst = s'.pins.rst →
    (s.dec = s'.dec → s.decStreams = s'.decStreams → s.pins.dec = s'.pins.dec →
      t.dec = t'.dec ∧ t.decStreams = t'.decStreams) ∧
    (s.enc = s'.enc → s.encStreams = s'.encStreams → s.pins.enc = s'.pins.enc →
      t.enc = t'.enc ∧ t.encStreams = t'.encStreams) ∧
    (s.wav = s'.wav → s.wavStreams = s'.wavStreams → s.pins.wav = s'.pins.wav →
      t.wav = t'.wav ∧ t.wavStreams = t'.wavStreams)

/-- R39: the registers a reset edge leaves unspecified cannot be observed. Two states that differ at most in registers whose
guard says nothing has been written there show the same outputs, and after a step they still differ at most there. The streams
(log 4) and what the inputs are to show (log 2, log 3) are the same in both. -/
def Obligations.UnspecifiedRegistersUnobservable : Prop :=
  ∀ s t : State, s.SameGuarded t →
    s.shown = t.shown ∧ ∃ s' t', step s = .next s' ∧ step t = .next t' ∧ s'.SameGuarded t'

/-- R171, R54: a beat fires exactly when rst = 0, valid = 1 and ready = 1, and a step that is no reset edge transfers on each port
the data it shows if its beat fires, once, and nothing otherwise; at a reset edge the streams begin anew. The record of the
streams is the model's (log 4). -/
def Obligations.BeatsFire : Prop :=
  (∀ (s : State) (p : Port),
    s.fires p = true ↔ s.pins.rst = false ∧ s.validOf p = true ∧ s.readyOf p = true) ∧
  (∀ s t : State, s.pins.rst = true → step s = .next t →
    t.decStreams = ⟨[], []⟩ ∧ t.encStreams = ⟨[], []⟩ ∧ t.wavStreams = ⟨[], [], []⟩) ∧
  ∀ s t : State, s.pins.rst = false → step s = .next t →
    t.decStreams.taken = s.decStreams.taken ++
      (if s.fires .decIn then [⟨s.pins.dec.inDepth8, s.pins.dec.inData⟩] else []) ∧
    t.decStreams.given = s.decStreams.given ++ (if s.fires .decOut then [⟨s.dec.y2, s.dec.d2⟩] else []) ∧
    t.encStreams.taken = s.encStreams.taken ++ (if s.fires .encIn then [s.pins.enc.inData] else []) ∧
    t.encStreams.given = s.encStreams.given ++ (if s.fires .encOut then [s.enc.b2] else []) ∧
    t.wavStreams.cmds = s.wavStreams.cmds ++
      (if s.fires .wavCmd then
        [⟨s.pins.wav.cmdLe, s.pins.wav.cmdBits, s.pins.wav.cmdChannels, s.pins.wav.cmdRate, s.pins.wav.cmdLen⟩]
      else []) ∧
    t.wavStreams.payload = s.wavStreams.payload ++ (if s.fires .wavIn then [s.pins.wav.inData] else []) ∧
    t.wavStreams.out = s.wavStreams.out ++
      (if s.fires .wavOut then (wavOutput s.pins.wav.inValid s.pins.wav.inData s.wav).toList else [])

/-- R172: an output beat stays on offer, with the same data, until it fires or a reset edge comes; in PAYLOAD if the host keeps
`wav_in_valid` and `wav_in_data` steady. -/
def Obligations.OutputsSteady : Prop :=
  ∀ s t : State, s.pins.rst = false → step s = .next t →
    (∀ b, decOutput s.dec = some b → s.fires .decOut = false → decOutput t.dec = some b) ∧
    (∀ b, encOutput s.enc = some b → s.fires .encOut = false → encOutput t.enc = some b) ∧
    (∀ b, wavOutput s.pins.wav.inValid s.pins.wav.inData s.wav = some b → s.fires .wavOut = false →
      (s.wav.state = .payload →
        t.pins.wav.inValid = s.pins.wav.inValid ∧ t.pins.wav.inData = s.pins.wav.inData) →
      wavOutput t.pins.wav.inValid t.pins.wav.inData t.wav = some b)
end

