-- ==== Sys2Proof/Laws/Codec.lean ====
section
/-! SUPPORT. What the codec's shared operations can give: the biased magnitude (41_encode.md R120), the segment scan (R122,
R123) and the table read (20_memory.md R51). -/

namespace Sys2Proof.Machine

/-- The biased magnitude is at least the bias and is the exact integer of R120 step 1. -/
theorem biasedMag_eq (s : Int) : 132 ≤ biasedMag s ∧ (biasedMag s : Int) = if s < 0 then 132 - s else s + 132 := by
  unfold biasedMag
  simp only [Config.bias]
  split <;> constructor <;> omega

/-- The nine answers of the scan of `SEG_END`, each with the magnitudes that give it. -/
theorem segScan_cases (m : Nat) :
    (segScan m segEnd = 0 ∧ m ≤ 255) ∨ (segScan m segEnd = 1 ∧ 255 < m ∧ m ≤ 511) ∨
    (segScan m segEnd = 2 ∧ 511 < m ∧ m ≤ 1023) ∨ (segScan m segEnd = 3 ∧ 1023 < m ∧ m ≤ 2047) ∨
    (segScan m segEnd = 4 ∧ 2047 < m ∧ m ≤ 4095) ∨ (segScan m segEnd = 5 ∧ 4095 < m ∧ m ≤ 8191) ∨
    (segScan m segEnd = 6 ∧ 8191 < m ∧ m ≤ 16383) ∨ (segScan m segEnd = 7 ∧ 16383 < m ∧ m ≤ 32767) ∨
    (segScan m segEnd = 8 ∧ 32767 < m) := by
  have unroll : segScan m segEnd =
      if m ≤ 255 then 0 else (if m ≤ 511 then 0 else (if m ≤ 1023 then 0 else (if m ≤ 2047 then 0 else
        (if m ≤ 4095 then 0 else (if m ≤ 8191 then 0 else (if m ≤ 16383 then 0 else
          (if m ≤ 32767 then 0 else 0 + 1) + 1) + 1) + 1) + 1) + 1) + 1) + 1 := rfl
  rw [unroll]
  by_cases h0 : m ≤ 255
  · rw [if_pos h0]; omega
  rw [if_neg h0]
  by_cases h1 : m ≤ 511
  · rw [if_pos h1]; omega
  rw [if_neg h1]
  by_cases h2 : m ≤ 1023
  · rw [if_pos h2]; omega
  rw [if_neg h2]
  by_cases h3 : m ≤ 2047
  · rw [if_pos h3]; omega
  rw [if_neg h3]
  by_cases h4 : m ≤ 4095
  · rw [if_pos h4]; omega
  rw [if_neg h4]
  by_cases h5 : m ≤ 8191
  · rw [if_pos h5]; omega
  rw [if_neg h5]
  by_cases h6 : m ≤ 16383
  · rw [if_pos h6]; omega
  rw [if_neg h6]
  by_cases h7 : m ≤ 32767
  · rw [if_pos h7]; omega
  rw [if_neg h7]; omega

/-- The table read, by its address: the entry generated for the byte as received (R51, 10_state.md R31). -/
theorem decRomRead_eq (u : Byte) : decRomRead u = BitVec.ofInt 16 (ulawDecode u) := by
  have := u.isLt
  unfold decRomRead decLut
  rw [List.getD_eq_getElem?_getD, List.getElem?_map, List.getElem?_range this]
  simp

/-- The two words DEC can give for a byte (40_decode.md R105). -/
theorem decWordWith_eq (narrow : Half → Byte) (u : Byte) (d : Bool) :
    decWordWith narrow u d =
      if d then (narrow (BitVec.ofInt 16 (ulawDecode u))).signExtend 16 else BitVec.ofInt 16 (ulawDecode u) := by
  rw [decWordWith, decRomRead_eq]

end Sys2Proof.Machine
end

