-- ==== Sys2Proof/Laws/Frames.lean ====
section
/-! SUPPORT. What frames are made of: the header's bytes (42_wav_wrap.md R143), the marking of the last byte (R155), and
the frames of a sequence of commands (R156, R160). -/

namespace Sys2Proof.Machine

@[simp] theorem WrapCmd.header_length (c : WrapCmd) : c.header.length = 44 := by simp [WrapCmd.header, wavHeader]

/-- The header, one byte further. -/
theorem WrapCmd.header_take_succ (c : WrapCmd) (i : Nat) (h : i < 44) :
    c.header.take (i + 1) =
      c.header.take i ++ [hdrByte c.len.toNat c.rate.toNat c.channels.toNat c.bits.toNat c.le i] := by
  rw [List.take_add_one]
  congr 1
  simp [WrapCmd.header, wavHeader, List.getElem?_range h]

@[simp] theorem unmarked_nil : unmarked [] = [] := rfl

theorem unmarked_append (a b : List Byte) : unmarked (a ++ b) = unmarked a ++ unmarked b := List.map_append

/-- `last` is on the final byte and on no other. -/
theorem markLast_concat (bs : List Byte) (b : Byte) : markLast (bs ++ [b]) = unmarked bs ++ [⟨b, true⟩] := by
  induction bs with
  | nil => rfl
  | cons x xs ih =>
    obtain ⟨y, ys, hy⟩ := List.exists_cons_of_ne_nil (show xs ++ [b] ≠ [] by simp)
    rw [List.cons_append, hy, markLast.eq_3 _ _ (by simp), ← hy, ih]; rfl

/-- The frame of a command and a payload of its length. -/
theorem frameOf_eq (c : WrapCmd) (p : List Byte) (h : p.length = c.len.toNat) (hl : c.len.toNat ≤ Config.lenMax) :
    frameOf c p = markLast (c.header ++ p) := by
  have : wavWrap p c.rate.toNat c.channels.toNat c.bits.toNat c.le = .ok (c.header ++ p) := by
    unfold wavWrap; rw [if_neg (by simp [Config.lenMax] at hl; omega), h]; rfl
  unfold frameOf; rw [this]

/-- One more command and its payload: one more frame. -/
theorem framesOf_concat (cs : List WrapCmd) (c : WrapCmd) (p q : List Byte)
    (hp : p.length = (cs.map fun c => c.len.toNat).sum) (hq : q.length = c.len.toNat) :
    framesOf (cs ++ [c]) (p ++ q) = framesOf cs p ++ frameOf c q := by
  induction cs generalizing p with
  | nil =>
    obtain rfl : p = [] := by simpa using hp
    simp [framesOf, ← hq]
  | cons d ds ih =>
    simp only [List.map_cons, List.sum_cons] at hp
    simp only [List.cons_append, framesOf, List.append_assoc]
    rw [List.take_append_of_le_length (by omega), List.drop_append_of_le_length (by omega), ih _ (by simp; omega)]

/-- `Delivered` grows by one frame. -/
theorem Delivered.concat {cs : List WrapCmd} {p : List Byte} {out : List FrameByte} (h : Delivered cs p out)
    (c : WrapCmd) (q : List Byte) (hq : q.length = c.len.toNat) (hl : c.len.toNat ≤ Config.lenMax) :
    Delivered (cs ++ [c]) (p ++ q) (out ++ frameOf c q) := by
  obtain ⟨h1, h2, rfl⟩ := h
  refine ⟨fun d hd => ?_, by simp [h2, hq], (framesOf_concat cs c p q h2 hq).symm⟩
  rcases List.mem_append.mp hd with hd | hd
  · exact h1 d hd
  · rw [List.mem_singleton.mp hd]; exact hl

end Sys2Proof.Machine
end

