-- ==== Sys2Proof/Laws/PerInstr.lean ====
section
/-! SUPPORT. One statement about every instruction, proved constructor by constructor: its written-down beat stands on
the port of its row of opcode_table.json and fits that port (30_encoding.md R75 to R77, R80, R81). -/

/-- The beat of `i` stands on the port of its row, is well formed, and has the row's fixed bits. -/
def Sys2Proof.Laws.EncodedBeat.Statement (i : Sys2Proof.Instr) : Prop :=
  (Sys2Proof.encode i).WellFormed = true ∧
  match i with
  | .dec16 _ => (Sys2Proof.encode i).port = .decIn ∧ (Sys2Proof.encode i).word &&& 0x100 = 0x000
  | .dec8 _ => (Sys2Proof.encode i).port = .decIn ∧ (Sys2Proof.encode i).word &&& 0x100 = 0x100
  | .enc _ => (Sys2Proof.encode i).port = .encIn
  | .wrap _ _ _ _ _ => (Sys2Proof.encode i).port = .wavCmd

namespace Sys2Proof.Laws.EncodedBeat

theorem dec16 (u : Byte) : Statement (.dec16 u) := by
  refine ⟨?_, rfl, ?_⟩
  · exact decide_eq_true (decBeatWord false u).isLt
  · revert u; decide +kernel

theorem dec8 (u : Byte) : Statement (.dec8 u) := by
  refine ⟨?_, rfl, ?_⟩
  · exact decide_eq_true (decBeatWord true u).isLt
  · revert u; decide +kernel

theorem enc (s : Half) : Statement (.enc s) :=
  ⟨decide_eq_true s.isLt, rfl⟩

theorem wrap (le : Bool) (bits channels : Half) (rate len : Word) : Statement (.wrap le bits channels rate len) :=
  ⟨decide_eq_true (wrapCmdWord le bits channels rate len).isLt, rfl⟩

end Sys2Proof.Laws.EncodedBeat
end

