-- ==== Sys2Proof/Laws/State.lean ====
section
/-! SUPPORT. One lemma per field per update of State, so that no proof unfolds a record update. -/

namespace Sys2Proof.Machine

variable (s : State)

@[simp] theorem State.setDec_dec (x : DecRegs) : (s.setDec x).dec = x := rfl
@[simp] theorem State.setDec_enc (x : DecRegs) : (s.setDec x).enc = s.enc := rfl
@[simp] theorem State.setDec_wav (x : DecRegs) : (s.setDec x).wav = s.wav := rfl
@[simp] theorem State.setDec_decStreams (x : DecRegs) : (s.setDec x).decStreams = s.decStreams := rfl
@[simp] theorem State.setDec_encStreams (x : DecRegs) : (s.setDec x).encStreams = s.encStreams := rfl
@[simp] theorem State.setDec_wavStreams (x : DecRegs) : (s.setDec x).wavStreams = s.wavStreams := rfl
@[simp] theorem State.setDec_inputs (x : DecRegs) : (s.setDec x).inputs = s.inputs := rfl
@[simp] theorem State.setDec_held (x : DecRegs) : (s.setDec x).held = s.held := rfl
@[simp] theorem State.setDec_pins (x : DecRegs) : (s.setDec x).pins = s.pins := rfl

@[simp] theorem State.setEnc_dec (x : EncRegs) : (s.setEnc x).dec = s.dec := rfl
@[simp] theorem State.setEnc_enc (x : EncRegs) : (s.setEnc x).enc = x := rfl
@[simp] theorem State.setEnc_wav (x : EncRegs) : (s.setEnc x).wav = s.wav := rfl
@[simp] theorem State.setEnc_decStreams (x : EncRegs) : (s.setEnc x).decStreams = s.decStreams := rfl
@[simp] theorem State.setEnc_encStreams (x : EncRegs) : (s.setEnc x).encStreams = s.encStreams := rfl
@[simp] theorem State.setEnc_wavStreams (x : EncRegs) : (s.setEnc x).wavStreams = s.wavStreams := rfl
@[simp] theorem State.setEnc_inputs (x : EncRegs) : (s.setEnc x).inputs = s.inputs := rfl
@[simp] theorem State.setEnc_held (x : EncRegs) : (s.setEnc x).held = s.held := rfl
@[simp] theorem State.setEnc_pins (x : EncRegs) : (s.setEnc x).pins = s.pins := rfl

@[simp] theorem State.setWav_dec (x : WavRegs) : (s.setWav x).dec = s.dec := rfl
@[simp] theorem State.setWav_enc (x : WavRegs) : (s.setWav x).enc = s.enc := rfl
@[simp] theorem State.setWav_wav (x : WavRegs) : (s.setWav x).wav = x := rfl
@[simp] theorem State.setWav_decStreams (x : WavRegs) : (s.setWav x).decStreams = s.decStreams := rfl
@[simp] theorem State.setWav_encStreams (x : WavRegs) : (s.setWav x).encStreams = s.encStreams := rfl
@[simp] theorem State.setWav_wavStreams (x : WavRegs) : (s.setWav x).wavStreams = s.wavStreams := rfl
@[simp] theorem State.setWav_inputs (x : WavRegs) : (s.setWav x).inputs = s.inputs := rfl
@[simp] theorem State.setWav_held (x : WavRegs) : (s.setWav x).held = s.held := rfl
@[simp] theorem State.setWav_pins (x : WavRegs) : (s.setWav x).pins = s.pins := rfl

@[simp] theorem State.setDecStreams_dec (x : DecStreams) : (s.setDecStreams x).dec = s.dec := rfl
@[simp] theorem State.setDecStreams_enc (x : DecStreams) : (s.setDecStreams x).enc = s.enc := rfl
@[simp] theorem State.setDecStreams_wav (x : DecStreams) : (s.setDecStreams x).wav = s.wav := rfl
@[simp] theorem State.setDecStreams_decStreams (x : DecStreams) : (s.setDecStreams x).decStreams = x := rfl
@[simp] theorem State.setDecStreams_encStreams (x : DecStreams) : (s.setDecStreams x).encStreams = s.encStreams := rfl
@[simp] theorem State.setDecStreams_wavStreams (x : DecStreams) : (s.setDecStreams x).wavStreams = s.wavStreams := rfl
@[simp] theorem State.setDecStreams_inputs (x : DecStreams) : (s.setDecStreams x).inputs = s.inputs := rfl
@[simp] theorem State.setDecStreams_held (x : DecStreams) : (s.setDecStreams x).held = s.held := rfl
@[simp] theorem State.setDecStreams_pins (x : DecStreams) : (s.setDecStreams x).pins = s.pins := rfl

@[simp] theorem State.setEncStreams_dec (x : EncStreams) : (s.setEncStreams x).dec = s.dec := rfl
@[simp] theorem State.setEncStreams_enc (x : EncStreams) : (s.setEncStreams x).enc = s.enc := rfl
@[simp] theorem State.setEncStreams_wav (x : EncStreams) : (s.setEncStreams x).wav = s.wav := rfl
@[simp] theorem State.setEncStreams_decStreams (x : EncStreams) : (s.setEncStreams x).decStreams = s.decStreams := rfl
@[simp] theorem State.setEncStreams_encStreams (x : EncStreams) : (s.setEncStreams x).encStreams = x := rfl
@[simp] theorem State.setEncStreams_wavStreams (x : EncStreams) : (s.setEncStreams x).wavStreams = s.wavStreams := rfl
@[simp] theorem State.setEncStreams_inputs (x : EncStreams) : (s.setEncStreams x).inputs = s.inputs := rfl
@[simp] theorem State.setEncStreams_held (x : EncStreams) : (s.setEncStreams x).held = s.held := rfl
@[simp] theorem State.setEncStreams_pins (x : EncStreams) : (s.setEncStreams x).pins = s.pins := rfl

@[simp] theorem State.setWavStreams_dec (x : WavStreams) : (s.setWavStreams x).dec = s.dec := rfl
@[simp] theorem State.setWavStreams_enc (x : WavStreams) : (s.setWavStreams x).enc = s.enc := rfl
@[simp] theorem State.setWavStreams_wav (x : WavStreams) : (s.setWavStreams x).wav = s.wav := rfl
@[simp] theorem State.setWavStreams_decStreams (x : WavStreams) : (s.setWavStreams x).decStreams = s.decStreams := rfl
@[simp] theorem State.setWavStreams_encStreams (x : WavStreams) : (s.setWavStreams x).encStreams = s.encStreams := rfl
@[simp] theorem State.setWavStreams_wavStreams (x : WavStreams) : (s.setWavStreams x).wavStreams = x := rfl
@[simp] theorem State.setWavStreams_inputs (x : WavStreams) : (s.setWavStreams x).inputs = s.inputs := rfl
@[simp] theorem State.setWavStreams_held (x : WavStreams) : (s.setWavStreams x).held = s.held := rfl
@[simp] theorem State.setWavStreams_pins (x : WavStreams) : (s.setWavStreams x).pins = s.pins := rfl

@[simp] theorem State.setInputs_dec (x : List Pins) : (s.setInputs x).dec = s.dec := rfl
@[simp] theorem State.setInputs_enc (x : List Pins) : (s.setInputs x).enc = s.enc := rfl
@[simp] theorem State.setInputs_wav (x : List Pins) : (s.setInputs x).wav = s.wav := rfl
@[simp] theorem State.setInputs_decStreams (x : List Pins) : (s.setInputs x).decStreams = s.decStreams := rfl
@[simp] theorem State.setInputs_encStreams (x : List Pins) : (s.setInputs x).encStreams = s.encStreams := rfl
@[simp] theorem State.setInputs_wavStreams (x : List Pins) : (s.setInputs x).wavStreams = s.wavStreams := rfl
@[simp] theorem State.setInputs_inputs (x : List Pins) : (s.setInputs x).inputs = x := rfl
@[simp] theorem State.setInputs_held (x : List Pins) : (s.setInputs x).held = s.held := rfl

@[simp] theorem State.advance_dec : s.advance.dec = s.dec := rfl
@[simp] theorem State.advance_enc : s.advance.enc = s.enc := rfl
@[simp] theorem State.advance_wav : s.advance.wav = s.wav := rfl
@[simp] theorem State.advance_decStreams : s.advance.decStreams = s.decStreams := rfl
@[simp] theorem State.advance_encStreams : s.advance.encStreams = s.encStreams := rfl
@[simp] theorem State.advance_wavStreams : s.advance.wavStreams = s.wavStreams := rfl
@[simp] theorem State.advance_inputs : s.advance.inputs = s.inputs.tail := rfl
@[simp] theorem State.advance_held : s.advance.held = s.held := rfl

@[simp] theorem State.setHeld_dec (x : Pins) : (s.setHeld x).dec = s.dec := rfl
@[simp] theorem State.setHeld_enc (x : Pins) : (s.setHeld x).enc = s.enc := rfl
@[simp] theorem State.setHeld_wav (x : Pins) : (s.setHeld x).wav = s.wav := rfl
@[simp] theorem State.setHeld_decStreams (x : Pins) : (s.setHeld x).decStreams = s.decStreams := rfl
@[simp] theorem State.setHeld_encStreams (x : Pins) : (s.setHeld x).encStreams = s.encStreams := rfl
@[simp] theorem State.setHeld_wavStreams (x : Pins) : (s.setHeld x).wavStreams = s.wavStreams := rfl
@[simp] theorem State.setHeld_inputs (x : Pins) : (s.setHeld x).inputs = s.inputs := rfl
@[simp] theorem State.setHeld_held (x : Pins) : (s.setHeld x).held = x := rfl

@[simp] theorem State.showing_dec (x : Pins) : (s.showing x).dec = s.dec := rfl
@[simp] theorem State.showing_enc (x : Pins) : (s.showing x).enc = s.enc := rfl
@[simp] theorem State.showing_wav (x : Pins) : (s.showing x).wav = s.wav := rfl
@[simp] theorem State.showing_decStreams (x : Pins) : (s.showing x).decStreams = s.decStreams := rfl
@[simp] theorem State.showing_encStreams (x : Pins) : (s.showing x).encStreams = s.encStreams := rfl
@[simp] theorem State.showing_wavStreams (x : Pins) : (s.showing x).wavStreams = s.wavStreams := rfl
@[simp] theorem State.showing_held (x : Pins) : (s.showing x).held = s.held := rfl
@[simp] theorem State.showing_inputs (x : Pins) : (s.showing x).inputs = [x] := rfl
@[simp] theorem State.showing_pins (x : Pins) : (s.showing x).pins = x := rfl

/-- Two states are equal when their eight fields are. -/
theorem State.eq_of_fields {s t : State} (h1 : s.dec = t.dec) (h2 : s.enc = t.enc) (h3 : s.wav = t.wav)
    (h4 : s.decStreams = t.decStreams) (h5 : s.encStreams = t.encStreams) (h6 : s.wavStreams = t.wavStreams)
    (h7 : s.inputs = t.inputs) (h8 : s.held = t.held) : s = t := by
  cases s; cases t; subst h1 h2 h3 h4 h5 h6 h7 h8; rfl

end Sys2Proof.Machine
end

