-- ==== Sys2Proof/Laws/Units.lean ====
section
/-! SUPPORT. What a unit's edge can do: it writes that unit's registers and streams and nothing else (10_state.md R30), and
the registers after it are one of the named cases of R174, R175, R151 to R154. -/

namespace Sys2Proof.Machine

variable (s : State)

/-! ### Fields after a unit's edge -/

@[simp] theorem decEdge_dec (o : Option DecBeat) :
    (decEdge o s).dec = decNext s.pins.rst o s.pins.dec.outReady s.dec := rfl
@[simp] theorem decEdge_decStreams (o : Option DecBeat) :
    (decEdge o s).decStreams = decStreamsNext s.pins.rst o s.pins.dec.outReady s.dec s.decStreams := rfl
@[simp] theorem decEdge_enc (o : Option DecBeat) : (decEdge o s).enc = s.enc := rfl
@[simp] theorem decEdge_wav (o : Option DecBeat) : (decEdge o s).wav = s.wav := rfl
@[simp] theorem decEdge_encStreams (o : Option DecBeat) : (decEdge o s).encStreams = s.encStreams := rfl
@[simp] theorem decEdge_wavStreams (o : Option DecBeat) : (decEdge o s).wavStreams = s.wavStreams := rfl
@[simp] theorem decEdge_inputs (o : Option DecBeat) : (decEdge o s).inputs = s.inputs := rfl
@[simp] theorem decEdge_held (o : Option DecBeat) : (decEdge o s).held = s.held := rfl
@[simp] theorem decEdge_pins (o : Option DecBeat) : (decEdge o s).pins = s.pins := rfl

@[simp] theorem encEdge_enc (o : Option Half) :
    (encEdge o s).enc = encNext s.pins.rst o s.pins.enc.outReady s.enc := rfl
@[simp] theorem encEdge_encStreams (o : Option Half) :
    (encEdge o s).encStreams = encStreamsNext s.pins.rst o s.pins.enc.outReady s.enc s.encStreams := rfl
@[simp] theorem encEdge_dec (o : Option Half) : (encEdge o s).dec = s.dec := rfl
@[simp] theorem encEdge_wav (o : Option Half) : (encEdge o s).wav = s.wav := rfl
@[simp] theorem encEdge_decStreams (o : Option Half) : (encEdge o s).decStreams = s.decStreams := rfl
@[simp] theorem encEdge_wavStreams (o : Option Half) : (encEdge o s).wavStreams = s.wavStreams := rfl
@[simp] theorem encEdge_inputs (o : Option Half) : (encEdge o s).inputs = s.inputs := rfl
@[simp] theorem encEdge_held (o : Option Half) : (encEdge o s).held = s.held := rfl
@[simp] theorem encEdge_pins (o : Option Half) : (encEdge o s).pins = s.pins := rfl

@[simp] theorem wavEdge_wav (o : Option WrapCmd) :
    (wavEdge o s).wav = wavNext s.pins.rst o s.pins.wav.inValid s.pins.wav.outReady s.wav := rfl
@[simp] theorem wavEdge_wavStreams (o : Option WrapCmd) :
    (wavEdge o s).wavStreams =
      wavStreamsNext s.pins.rst o s.pins.wav.inValid s.pins.wav.inData s.pins.wav.outReady s.wav s.wavStreams := rfl
@[simp] theorem wavEdge_dec (o : Option WrapCmd) : (wavEdge o s).dec = s.dec := rfl
@[simp] theorem wavEdge_enc (o : Option WrapCmd) : (wavEdge o s).enc = s.enc := rfl
@[simp] theorem wavEdge_decStreams (o : Option WrapCmd) : (wavEdge o s).decStreams = s.decStreams := rfl
@[simp] theorem wavEdge_encStreams (o : Option WrapCmd) : (wavEdge o s).encStreams = s.encStreams := rfl
@[simp] theorem wavEdge_inputs (o : Option WrapCmd) : (wavEdge o s).inputs = s.inputs := rfl
@[simp] theorem wavEdge_held (o : Option WrapCmd) : (wavEdge o s).held = s.held := rfl
@[simp] theorem wavEdge_pins (o : Option WrapCmd) : (wavEdge o s).pins = s.pins := rfl

/-! ### The registers of DEC after an edge -/

variable {o : Option DecBeat} {ready : Bool} {r : DecRegs}

@[simp] theorem decNext_rst : decNext true o ready r = r.clear := rfl

/-- DEC stalled: both stages full and the result not taken (R173). -/
theorem decNext_stalled (h1 : r.v1 = true) (h2 : r.v2 = true) : decNext false o false r = r := by
  cases r; simp_all [decNext, decLoad1, decLoad2, decS1Free, decS2Free]

/-- DEC with stage 1 free: stage 1 takes what is on offer; stage 2 takes what stage 1 held if it is free (R174). -/
theorem decNext_free (h : decS1Free r ready = true) :
    decNext false o ready r =
      { v1 := o.isSome
        a1 := (o.map DecBeat.data).getD r.a1
        d1 := (o.map DecBeat.depth8).getD r.d1
        v2 := if decS2Free r ready then r.v1 else r.v2
        y2 := if decS2Free r ready && r.v1 then decWord r.a1 r.d1 else r.y2
        d2 := if decS2Free r ready && r.v1 then r.d1 else r.d2 } := by
  rcases r with ⟨v1, a1, d1, v2, y2, d2⟩
  cases v1 <;> cases v2 <;> cases ready <;> cases o <;>
    simp_all [decNext, decLoad1, decLoad2, decS1Free, decS2Free]

/-- The stall is the only way stage 1 is not free (R173). -/
theorem decS1Free_eq_false : decS1Free r ready = false ↔ r.v1 = true ∧ r.v2 = true ∧ ready = false := by
  cases h1 : r.v1 <;> cases h2 : r.v2 <;> cases ready <;> simp [decS1Free, decS2Free, h1, h2]

/-! ### The registers of ENC after an edge -/

variable {w : Option Half} {e : EncRegs}

@[simp] theorem encNext_rst : encNext true w ready e = e.clear := rfl

/-- ENC stalled (R173). -/
theorem encNext_stalled (h1 : e.v1 = true) (h2 : e.v2 = true) : encNext false w false e = e := by
  cases e; simp_all [encNext, encLoad1, encLoad2, encS1Free, encS2Free]

/-- ENC with stage 1 free (R175). -/
theorem encNext_free (h : encS1Free e ready = true) :
    encNext false w ready e =
      { v1 := w.isSome
        neg1 := (w.map fun x => decide (x.toInt < 0)).getD e.neg1
        mag1 := (w.map fun x => BitVec.ofNat 16 (biasedMag x.toInt)).getD e.mag1
        v2 := if encS2Free e ready then e.v1 else e.v2
        b2 := if encS2Free e ready && e.v1 then encCode e.mag1 e.neg1 else e.b2 } := by
  rcases e with ⟨v1, neg1, mag1, v2, b2⟩
  cases v1 <;> cases v2 <;> cases ready <;> cases w <;>
    simp_all [encNext, encLoad1, encLoad2, encS1Free, encS2Free]

/-- The stall is the only way stage 1 is not free (R173). -/
theorem encS1Free_eq_false : encS1Free e ready = false ↔ e.v1 = true ∧ e.v2 = true ∧ ready = false := by
  cases h1 : e.v1 <;> cases h2 : e.v2 <;> cases ready <;> simp [encS1Free, encS2Free, h1, h2]

/-! ### The registers of WAV after an edge -/

variable {c : Option WrapCmd} {inValid : Bool} {v : WavRegs}

@[simp] theorem wavNext_rst : wavNext true c inValid ready v = v.clear := rfl

theorem wavNext_idle (h : v.state = .idle) : wavNext false c inValid ready v = wavIdleEdge c v := by
  simp [wavNext, h]

theorem wavNext_header (h : v.state = .header) : wavNext false c inValid ready v = wavHeaderEdge ready v := by
  simp [wavNext, h]

theorem wavNext_payload (h : v.state = .payload) :
    wavNext false c inValid ready v = wavPayloadEdge inValid ready v := by
  simp [wavNext, h]

theorem wavNext_fault (h : v.state = .fault) : wavNext false c inValid ready v = v := by
  simp [wavNext, h]

/-- The command port is looked at in IDLE only (R151). -/
theorem wavNext_busy (h : v.state ≠ .idle) : wavNext false c inValid ready v = wavNext false none inValid ready v := by
  cases h' : v.state <;> simp_all [wavNext]

end Sys2Proof.Machine
end

