-- ==== Sys2Proof/Laws/Step.lean ====
section
/-! SUPPORT. Everything a step can do: it answers a next state, which is `edge`. -/

namespace Sys2Proof.Machine

/-- The DECBEAT word reads back as its select bit and its byte (30_encoding.md R75). -/
theorem decodeDec_decBeatWord (d : Bool) (u : Byte) :
    decodeDec (decBeatWord d u) = if d then .dec8 u else .dec16 u := by
  have h8 : (decBeatWord d u).getLsbD 8 = d := by
    simp only [decBeatWord, BitVec.getLsbD_append]; cases d <;> rfl
  have hu : (decBeatWord d u).extractLsb' 0 8 = u := by
    ext i hi
    rw [BitVec.getElem_extractLsb', Nat.zero_add]
    simp only [decBeatWord, BitVec.getLsbD_append, hi, if_true]
    exact BitVec.getLsbD_eq_getElem hi
  rw [decodeDec, h8, hu]

/-- The DEC port's word, decoded, is the operation of the beat its two signals show (30_encoding.md R75). -/
theorem decOffered_eq (p : Pins) :
    decOffered p = p.decBeat.map fun b => if b.depth8 then .dec8 b.data else .dec16 b.data := by
  unfold decOffered Pins.decBeat
  split <;> simp [decodeDec_decBeatWord]

theorem encOffered_eq (p : Pins) : encOffered p = p.encBeat.map .enc := by
  unfold encOffered Pins.encBeat; split <;> rfl

/-- The command word, decoded, is the command its signals show (30_encoding.md R77). -/
theorem decodeWrap_wrapCmdWord (le : Bool) (bits channels : Half) (rate len : Word) :
    decodeWrap (wrapCmdWord le bits channels rate len) = .wrap le bits channels rate len := by
  unfold decodeWrap wrapCmdWord
  congr 1
  · simp only [BitVec.getLsbD_append]; cases le <;> rfl
  all_goals
    ext i hi
    rw [BitVec.getElem_extractLsb', ← BitVec.getLsbD_eq_getElem hi]
    simp only [BitVec.getLsbD_append]
    repeat' split
    all_goals first | omega | (congr 1; omega)

theorem wavOffered_eq (p : Pins) :
    wavOffered p = p.wrapCmd.map fun c => .wrap c.le c.bits c.channels c.rate c.len := by
  unfold wavOffered Pins.wrapCmd; split <;> simp [decodeWrap_wrapCmdWord]

/-- The state after one rising edge of the block. -/
def edge (s : State) : State :=
  (wavEdge s.pins.wrapCmd (encEdge s.pins.encBeat (decEdge s.pins.decBeat s))).advance

/-- A step always answers a next state: the three units' edges at the beats the pins show (00_scope.md R7). -/
theorem step_eq_edge (s : State) : step s = .next (edge s) := by
  unfold step edge
  rw [decOffered_eq]
  have hdec : unitEdge (s.pins.decBeat.map fun b => if b.depth8 then Instr.dec8 b.data else .dec16 b.data)
      (decEdge none) s = .next (decEdge s.pins.decBeat s) := by
    cases h : s.pins.decBeat with
    | none => rfl
    | some b => rcases b with ⟨d, u⟩; cases d <;> rfl
  rw [hdec]
  simp only [andThen, decEdge_pins, encOffered_eq]
  have henc (t : State) : unitEdge (s.pins.encBeat.map .enc) (encEdge none) t = .next (encEdge s.pins.encBeat t) := by
    cases s.pins.encBeat <;> rfl
  rw [henc]
  simp only [encEdge_pins, decEdge_pins, wavOffered_eq]
  have hwav (t : State) : unitEdge (s.pins.wrapCmd.map fun c => Instr.wrap c.le c.bits c.channels c.rate c.len)
      (wavEdge none) t = .next (wavEdge s.pins.wrapCmd t) := by
    cases s.pins.wrapCmd <;> rfl
  rw [hwav]

/-- The one state a step can answer. -/
theorem step_next_iff {s t : State} : step s = .next t ↔ t = edge s := by
  rw [step_eq_edge]; constructor <;> intro h
  · cases h; rfl
  · rw [h]

/-! ### Fields after an edge -/

variable (s : State)

@[simp] theorem edge_dec : (edge s).dec = decNext s.pins.rst s.pins.decBeat s.pins.dec.outReady s.dec := rfl
@[simp] theorem edge_enc : (edge s).enc = encNext s.pins.rst s.pins.encBeat s.pins.enc.outReady s.enc := rfl
@[simp] theorem edge_wav : (edge s).wav =
    wavNext s.pins.rst s.pins.wrapCmd s.pins.wav.inValid s.pins.wav.outReady s.wav := rfl
@[simp] theorem edge_decStreams : (edge s).decStreams =
    decStreamsNext s.pins.rst s.pins.decBeat s.pins.dec.outReady s.dec s.decStreams := rfl
@[simp] theorem edge_encStreams : (edge s).encStreams =
    encStreamsNext s.pins.rst s.pins.encBeat s.pins.enc.outReady s.enc s.encStreams := rfl
@[simp] theorem edge_wavStreams : (edge s).wavStreams =
    wavStreamsNext s.pins.rst s.pins.wrapCmd s.pins.wav.inValid s.pins.wav.inData s.pins.wav.outReady s.wav
      s.wavStreams := rfl
@[simp] theorem edge_inputs : (edge s).inputs = s.inputs.tail := rfl
@[simp] theorem edge_held : (edge s).held = s.held := rfl

/-- `k` edges as a function on states. -/
def edges : Nat → State → State
  | 0, s => s
  | k + 1, s => edges k (edge s)

/-- `k` edges always answer a next state. -/
theorem runEdges_eq_edges (k : Nat) : runEdges k s = .next (edges k s) := by
  induction k generalizing s with
  | zero => rfl
  | succ k ih => rw [runEdges, step_eq_edge]; exact ih (edge s)

theorem edges_add (j k : Nat) : edges (j + k) s = edges k (edges j s) := by
  induction j generalizing s with
  | zero => rw [Nat.zero_add]; rfl
  | succ j ih => rw [Nat.succ_add]; exact ih (edge s)

theorem edges_succ' (k : Nat) : edges (k + 1) s = edge (edges k s) := edges_add s k 1

/-! ### Runs under a host -/

/-- `k` edges under a host, as a function on states. -/
def hostEdges (host : Nat → Pins) : Nat → State → State
  | 0, s => s
  | k + 1, s => edge ((hostEdges host k s).showing (host k))

/-- `k` edges under a host always answer a next state. -/
theorem hostRun_eq_hostEdges (host : Nat → Pins) (k : Nat) : hostRun host k s = .next (hostEdges host k s) := by
  induction k with
  | zero => rfl
  | succ k ih => rw [hostRun, ih]; exact step_eq_edge _

/-- The one state `k` edges under a host can answer. -/
theorem hostRun_next_iff {s t : State} {host : Nat → Pins} {k : Nat} :
    hostRun host k s = .next t ↔ t = hostEdges host k s := by
  rw [hostRun_eq_hostEdges]; constructor <;> intro h
  · cases h; rfl
  · rw [h]

/-- An edge reads the coming inputs through the pins alone. -/
theorem edge_eq_showing {p : Pins} {rest : List Pins} (h : s.inputs = p :: rest) :
    edge s = (edge (s.showing p)).setInputs rest := by
  have hp : s.pins = p := by rw [State.pins, h]; rfl
  refine State.eq_of_fields ?_ ?_ ?_ ?_ ?_ ?_ ?_ rfl <;> simp [hp, h]

/-- A run under a host is the run on the list of its first `k` inputs, up to the inputs left over. -/
theorem hostEdges_eq_edges (host : Nat → Pins) (k : Nat) (rest : List Pins) :
    edges k (s.setInputs ((List.range k).map host ++ rest)) = (hostEdges host k s).setInputs rest := by
  induction k generalizing rest with
  | zero => rfl
  | succ k ih =>
    rw [List.range_succ, List.map_append, List.append_assoc, edges_succ', ih]
    exact edge_eq_showing _ rfl

/-- A run of the host's machine is `runEdges`. -/
theorem core_run (k : Nat) : Sys2Proof.core.run k s = runEdges k s := by
  have succ (M : Host.Core) (k : Nat) (x y : M.State) (h : M.step x = .next y) : M.run (k + 1) x = M.run k y := by
    rw [Host.Core.run, h]
  induction k generalizing s with
  | zero => rfl
  | succ k ih =>
    refine (succ Sys2Proof.core k s (edge s) (step_eq_edge s)).trans ((ih (edge s)).trans ?_)
    rw [runEdges, step_eq_edge]; rfl

end Sys2Proof.Machine
end

