-- ==== Sys2Proof/Machine/Stimulus.lean ====
section
/-! DEFINITION. The notation for programs of 30_encoding.md R82 and R83, and one way for a host to drive it into the
pins (log 17). It defines no hardware (92_eei_decisions.md D18). -/

namespace Sys2Proof.Machine

/-- A line of a stimulus program (R82). -/
inductive Line where
  /-- `DEC16`, `DEC8`, `ENC` or `WRAP` with its operands. -/
  | op (i : Instr)
  /-- `DATA`: payload bytes for the WRAP before it. -/
  | data (bytes : List Byte)
  /-- `RESET`: one reset edge. -/
  | reset
deriving DecidableEq, Repr

/-- `DECBUF16 u0 ... uk` (R83): VM's `decode(buffer, 16)`. -/
def decBuf16 (us : List Byte) : List Line := us.map fun u => .op (.dec16 u)

/-- `DECBUF8 u0 ... uk` (R83): VM's `decode(buffer, 8)`. -/
def decBuf8 (us : List Byte) : List Line := us.map fun u => .op (.dec8 u)

/-- `ENCBUF s0 ... sk` (R83): VM's `encode(sample sequence)`. -/
def encBuf (ss : List Half) : List Line := ss.map fun s => .op (.enc s)

/-- `WRAPBUF` (R83): VM's `wrap`; `le` omitted is little-endian; no bytes gives no `DATA` line. -/
def wrapBuf (rate : Word) (ch bits : Half) (le : Option Bool) (bytes : List Byte) : List Line :=
  .op (.wrap (le.getD true) bits ch rate (BitVec.ofNat 32 bytes.length)) ::
    if bytes.isEmpty then [] else [.data bytes]

/-- The pins of a host that takes every result and offers one operation (R75 to R77). -/
def Pins.ofInstr (i : Instr) : Pins := Pins.idle.offerBeat (encode i)

/-- The pins of a host that takes every result and offers one payload byte. -/
def Pins.ofByte (b : Byte) : Pins := { Pins.idle with wav := { Pins.idle.wav with inValid := true, inData := b } }

/-- The pins at a reset edge of a host that offers nothing. -/
def Pins.resetting : Pins := { Pins.idle with rst := true }

/-- The inputs of one line, for a host that takes every result and drives one line after another: a WRAP whose length
gives a frame is followed by the 44 edges at which its header leaves (R152), and a RESET line is preceded by two edges at
which DEC and ENC drain, so that no result of an earlier line is lost. R82 says nothing of cycles, and
70_reset_and_hazards.md R218 lets a host drain or lose the beats in flight; P7 of 95_test_vectors.md drains. The schedule
is the model's (DESIGN CHOICE, log 17). -/
def Line.inputs : Line → List Pins
  | .op (.dec16 u) => [Pins.ofInstr (.dec16 u)]
  | .op (.dec8 u) => [Pins.ofInstr (.dec8 u)]
  | .op (.enc s) => [Pins.ofInstr (.enc s)]
  | .op (.wrap le bits ch rate len) =>
    Pins.ofInstr (.wrap le bits ch rate len) ::
      if len.toNat > Config.lenMax then [] else List.replicate Config.hdrLen Pins.idle
  | .data bytes => bytes.map Pins.ofByte
  | .reset => [Pins.idle, Pins.idle, Pins.resetting]

/-- `s` with a stimulus program on its way to the pins. -/
def State.load (s : State) (program : List Line) : State := s.setInputs (program.flatMap Line.inputs)

end Sys2Proof.Machine
end

