-- ==== Sys2Proof/Tests/Slice0.lean ====
section
/-! SUPPORT. Tests: vectors printed in spec/95_test_vectors.md and words written out from spec/30_encoding.md, the smoke test
of WellFormed, and for every obligation with hypotheses a theorem `witness_<Name>` that meets them all. -/

namespace Sys2Proof.Tests

open Sys2Proof Sys2Proof.Machine

/-! ### Helpers -/

/-- The state after a reset edge, with these inputs on their way. -/
def fresh (ps : List Pins) : State := State.reset.setInputs ps

/-- `f` holds of the next state, if there is one. -/
def nextHas (o : Host.Outcome State Fault Refusal) (f : State → Bool) : Bool :=
  match o with
  | .next t => f t
  | .fault _ => false
  | .refused _ => false

/-- A host that takes nothing and offers nothing. -/
def notReady : Pins :=
  { Pins.idle with
    dec := { Pins.idle.dec with outReady := false }
    enc := { Pins.idle.enc with outReady := false }
    wav := { Pins.idle.wav with outReady := false } }

/-- Both pipelines full: DEC holds the codes 0xA5 and 0xFF, ENC the samples 1000 and 0. -/
def full (ps : List Pins) : State :=
  { fresh ps with
    dec := { v1 := true, a1 := 0xA5, d1 := false, v2 := true, y2 := 0, d2 := false }
    enc := { v1 := true, neg1 := false, mag1 := 0x046C, v2 := true, b2 := 0xFF }
    decStreams := { taken := [⟨false, 0xFF⟩, ⟨false, 0xA5⟩], given := [] }
    encStreams := { taken := [0, 0x03E8], given := [] } }

/-- The sequencer in a given state, with the command of W2 (4 bytes, 8000 Hz, mono, 16 bits, little-endian) latched. -/
def wavAt (state : WavState) (idx : BitVec 6) (rem : Word) (ps : List Pins) : State :=
  { fresh ps with wav := { state := state, idx := idx, rem := rem, rate := 8000, ch := 1, bits := 16, le := true } }

/-- The command of W2. -/
def w2 : WrapCmd := { le := true, bits := 16, channels := 1, rate := 8000, len := 4 }

/-- A host that always offers the payload byte `b` and takes everything is fair. -/
theorem fairHost_ofByte (b : Byte) (s : State) : FairHost (fun _ => Pins.ofByte b) s :=
  ⟨fun k _ _ _ => ⟨k, le_rfl, rfl⟩, fun k _ _ _ => ⟨k, le_rfl, rfl⟩, fun k _ _ _ => ⟨k, le_rfl, rfl⟩,
    fun k _ _ _ => ⟨k, le_rfl, rfl⟩⟩

/-- It keeps its byte steady. -/
theorem steadyPayload_ofByte (b : Byte) (s : State) : SteadyPayload (fun _ => Pins.ofByte b) s :=
  fun _ _ _ _ _ _ h => nomatch h

/-! ### Well-formedness: a good term, and an ill-formed one for each check -/

theorem test_wellFormed_good : RawBeat.WellFormed ⟨.decIn, 511⟩ = true := by decide
theorem test_wellFormed_payload_port : RawBeat.WellFormed ⟨.wavIn, 0⟩ = false := by decide
theorem test_wellFormed_output_port : RawBeat.WellFormed ⟨.decOut, 0⟩ = false := by decide
theorem test_wellFormed_dec_too_wide : RawBeat.WellFormed ⟨.decIn, 512⟩ = false := by decide
theorem test_wellFormed_enc_too_wide : RawBeat.WellFormed ⟨.encIn, 65536⟩ = false := by decide
theorem test_wellFormed_wrap_too_wide : RawBeat.WellFormed ⟨.wavCmd, 2 ^ 97⟩ = false := by decide

/-! ### Decoding: words written out bit by bit from R75 to R77 -/

/-- R75: select bit 0, then the byte 0xA5 = 10100101. -/
theorem test_decode_dec16 : decode ⟨.decIn, 0b0_1010_0101⟩ = .ok (.dec16 0xA5) := by decide

/-- R75: select bit 1, then the byte 0xEF = 11101111. -/
theorem test_decode_dec8 : decode ⟨.decIn, 0b1_1110_1111⟩ = .ok (.dec8 0xEF) := by decide

/-- R76: the 16 bits of the sample -6652 = 0xE604 (95_test_vectors.md 2.3). -/
theorem test_decode_enc : decode ⟨.encIn, 0b1110_0110_0000_0100⟩ = .ok (.enc 0xE604) := by decide

/-- R77: `le | bits | ch | rate | len` of P5. -/
theorem test_decode_wrap :
    decode ⟨.wavCmd, 0b1_0000000000010000_0000000000000001_00000000000000000001111101000000_00000000000000000000000000000100⟩
      = .ok (.wrap true 16 1 8000 4) := by decide

/-- Refusals by name: a payload byte starts no operation (R80), a tenth bit does not fit DEC in (R54). -/
theorem test_decode_refusals :
    decode ⟨.wavIn, 0x41⟩ = .error (.notAnOperationPort .wavIn) ∧ decode ⟨.decIn, 512⟩ = .error (.tooWide .decIn) := by
  decide

/-- A word of each row of opcode_table.json, as the host numbers them. -/
theorem test_tableWords :
    decodeTableWord 16 0x0A5 = some (.dec16 0xA5) ∧ decodeTableWord 16 0x1A5 = some (.dec8 0xA5) ∧
    decodeTableWord 16 0xFC18 = some (.enc 0xFC18) ∧
    decodeTableWord 104 0x10010000100001F4000000004 = some (.wrap true 16 1 8000 4) := by decide

/-! ### DEC16 and DEC8 -/

/-- 95_test_vectors.md 2.1: both zeros, both extremes, both sides of a segment boundary. -/
theorem test_dec16_vectors :
    decWord 0xFF false = 0x0000 ∧ decWord 0x7F false = 0x0000 ∧ decWord 0xF0 false = 0x0078 ∧
    decWord 0xEF false = 0x0084 ∧ decWord 0x25 false = 0xE604 ∧ decWord 0x80 false = 0x7D7C ∧
    decWord 0x00 false = 0x8284 := by decide +kernel

/-- R106: `DEC16 0xA5` in stage 1 becomes 0x19FC in stage 2. -/
theorem test_dec16_step :
    nextHas (step { fresh [] with dec := { State.reset.dec with v1 := true, a1 := 0xA5 } })
      (fun t => t.dec.v2 && !t.dec.v1 && t.dec.y2 == 0x19FC && !t.dec.d2) = true := by decide +kernel

/-- 95_test_vectors.md 2.2, row 0xEF: the three candidates for NARROW8 told apart. -/
theorem test_dec8_candidates :
    decWordWith (narrowWord trunc8) 0xEF true = 0xFF84 ∧ decWordWith (narrowWord sat8) 0xEF true = 0x007F ∧
    decWordWith (narrowWord hi8) 0xEF true = 0x0000 ∧ decWordWith (narrowWord hi8) 0x25 true = 0xFFE6 := by
  decide +kernel

/-- R107: `DEC8 0x00` is taken into stage 1 with its select bit. -/
theorem test_dec8_taken :
    nextHas (exec (.dec8 0x00) (fresh [])) (fun t => t.dec.v1 && t.dec.d1 && t.decStreams.taken == [⟨true, 0x00⟩])
      = true := by decide +kernel

/-! ### ENC -/

/-- 95_test_vectors.md 2.3: ties, the clamp on both sides, and the least input. -/
theorem test_enc_vectors :
    ulawEncode 123 = 0xF0 ∧ ulawEncode 124 = 0xEF ∧ ulawEncode (-1) = 0x7F ∧ ulawEncode (-125) = 0x6F ∧
    ulawEncode 31611 = 0x81 ∧ ulawEncode 32636 = 0x80 ∧ ulawEncode (-32768) = 0x00 ∧ ulawEncode 6652 = 0xA5 := by
  decide +kernel

/-- R125 and 2.3: the least input reaches stage 1 as negative with magnitude 0x8084. -/
theorem test_enc_taken :
    nextHas (exec (.enc 0x8000) (fresh [])) (fun t => t.enc.v1 && t.enc.neg1 && t.enc.mag1 == 0x8084) = true := by
  decide +kernel

/-! ### WRAP -/

/-- W7 of 95_test_vectors.md: big-endian, three bytes a sample. -/
theorem test_header_W7 : wavHeader 6 48000 2 24 false =
    [0x52, 0x49, 0x46, 0x46, 0x00, 0x00, 0x00, 0x32, 0x57, 0x41, 0x56, 0x45, 0x66, 0x6D, 0x74, 0x20] ++
    [0x00, 0x00, 0x00, 0x10, 0x00, 0x01, 0x00, 0x02, 0x00, 0x00, 0xBB, 0x80, 0x00, 0x04, 0x65, 0x00] ++
    [0x00, 0x06, 0x00, 0x18, 0x64, 0x61, 0x74, 0x61, 0x00, 0x00, 0x00, 0x06] := by decide +kernel

/-- W9: every field at its extreme, byte rate and block align truncated. -/
theorem test_header_W9 : wavHeader 0xFFFFFFD3 0xFFFFFFFF 0xFFFF 0xFFFF true =
    [0x52, 0x49, 0x46, 0x46, 0xFF, 0xFF, 0xFF, 0xFF, 0x57, 0x41, 0x56, 0x45, 0x66, 0x6D, 0x74, 0x20] ++
    [0x10, 0x00, 0x00, 0x00, 0x01, 0x00, 0xFF, 0xFF, 0xFF, 0xFF, 0xFF, 0xFF, 0xFF, 0x3F, 0x00, 0x00] ++
    [0x00, 0xC0, 0xFF, 0xFF, 0x64, 0x61, 0x74, 0x61, 0xD3, 0xFF, 0xFF, 0xFF] := by decide +kernel

/-- 95_test_vectors.md 2.5: the length 0xFFFFFFD4 ends in FAULT with `wav_err`, 0xFFFFFFD3 starts a frame. -/
theorem test_wrap_boundary :
    nextHas (exec (.wrap true 16 1 8000 0xFFFFFFD4) (fresh [])) (fun t => t.wavErr && t.wav.rem == 0xFFFFFFD4) = true ∧
    nextHas (exec (.wrap true 16 1 8000 0xFFFFFFD3) (fresh [])) (fun t => decide (t.wav.state = .header)) = true := by
  decide +kernel

/-- W2: the last payload byte 0x04 passes with `last`, and the sequencer re-enters IDLE with `wav_rem = 1` (P5). -/
theorem test_wrap_last_byte :
    nextHas (step (wavAt .payload 43 1 [Pins.ofByte 0x04]))
      (fun t => t.wavStreams.out == [⟨0x04, true⟩] && decide (t.wav.state = .idle) && t.wav.rem == 1) = true := by
  decide +kernel

/-! ### Reset and stimulus notation -/

/-- P7: a reset edge leaves FAULT, and a command on offer at that edge is not taken (R193). -/
theorem test_reset_leaves_fault :
    nextHas (step (wavAt .fault 0 0xFFFFFFD4 [{ Pins.ofInstr (.wrap true 16 1 8000 0) with rst := true }]))
      (fun t => decide (t.wav.state = .idle) && !t.wavErr && t.wavStreams.cmds.isEmpty) = true := by decide +kernel

/-- P5: the expansion of WRAPBUF with `le` omitted. -/
theorem test_wrapBuf :
    wrapBuf 8000 1 16 none [1, 2, 3, 4] = [.op (.wrap true 16 1 8000 4), .data [1, 2, 3, 4]] := by decide

/-- P7 and R218: a RESET line lets DEC and ENC drain first, so that the beat of the line before it leaves. -/
theorem test_reset_line_drains :
    (match runEdges 3 ((fresh []).load [.op (.dec16 0xFF), .reset]) with
      | .next t => t.decStreams.given == [⟨0, false⟩]
      | _ => false) = true := by decide +kernel

/-- A WRAP line: the command's edge and 44 edges for its header (R152). -/
theorem test_line_inputs : (Line.inputs (.op (.wrap true 16 1 8000 4))).length = 45 := by decide +kernel

/-! ### Witnesses: concrete inputs that meet the hypotheses of each obligation, clause by clause at its boundary -/

theorem witness_DecodeOfEncode :
    (Instr.dec16 0xFF).WellFormed = true ∧ (Instr.dec8 0).WellFormed = true ∧ (Instr.enc 0x8000).WellFormed = true ∧
    (Instr.wrap true 0xFFFF 0xFFFF 0xFFFFFFFF 0xFFFFFFFF).WellFormed = true := by decide

theorem witness_EncodeOfDecode :
    RawBeat.WellFormed ⟨.decIn, 511⟩ = true ∧ RawBeat.WellFormed ⟨.encIn, 65535⟩ = true ∧
    RawBeat.WellFormed ⟨.wavCmd, 2 ^ 97 - 1⟩ = true := by decide

theorem witness_IllFormedBeatsRejected :
    Port.startsOperation .wavIn = false ∧ Port.startsOperation .decOut = false ∧
    (Port.startsOperation .decIn = true ∧ 2 ^ Port.width .decIn ≤ 512) ∧
    (Port.startsOperation .encIn = true ∧ 2 ^ Port.width .encIn ≤ 65536) ∧
    (Port.startsOperation .wavCmd = true ∧ 2 ^ Port.width .wavCmd ≤ 2 ^ 97) := by decide

theorem witness_CodeWordAssembly : (0 < 8 ∧ 0 < 16) ∧ (7 < 8 ∧ 15 < 16) := by decide

theorem witness_UlawDecodeProperties :
    (0x80 ≤ (0x80 : Byte).toNat ∧ (0x80 : Byte).toNat < (0xFF : Byte).toNat) ∧
    ((0x00 : Byte).toNat < (0x7F : Byte).toNat ∧ (0x7F : Byte).toNat ≤ 0x7F) ∧
    ((0x8F : Byte).toNat = (0x8E : Byte).toNat + 1 ∧ ulawSegment 0x8E = ulawSegment 0x8F ∧
      ulawSign 0x8E = ulawSign 0x8F) ∧
    ulawQuant 0xFF = 0 ∧ ulawQuant 0x80 = 15 := by decide

theorem witness_NarrowingCandidates :
    (-128 : Int) ≤ -128 ∧ (127 : Int) ≤ 127 ∧ (-129 : Int) < -128 ∧ (127 : Int) < 128 ∧
    (-32768 : Int) ≤ -32124 ∧ (32124 : Int) ≤ 32767 := by decide

theorem witness_DecResultWord : (8 ≤ 8 ∧ 8 < 16) ∧ (8 ≤ 15 ∧ 15 < 16) := by decide

/-- Stage 1 free because it is empty, because stage 2 is empty, and because stage 2 is being emptied. -/
theorem witness_Dec16Completes :
    ((fresh []).pins.rst = false ∧ (fresh []).dec.v1 = false) ∧
    ((full [Pins.idle]).pins.rst = false ∧ (full [Pins.idle]).dec.v1 = true ∧ (full [Pins.idle]).dec.v2 = true ∧
      (full [Pins.idle]).pins.dec.outReady = true) := by decide

theorem witness_Dec8Completes :
    let s : State := { full [notReady] with dec := { (full []).dec with v2 := false } }
    s.pins.rst = false ∧ s.dec.v1 = true ∧ s.dec.v2 = false ∧ s.pins.dec.outReady = false := by decide

theorem witness_DecResultsLeave :
    (full [Pins.idle]).pins.rst = false ∧ (full [Pins.idle]).pins.dec.outReady = true ∧ Pins.idle.rst = false ∧
    Pins.idle.dec.outReady = true := by decide

/-- The four cases of R174: both stages free with and without a beat, stage 2 alone held up, both held up. -/
theorem witness_DecEdgeRule :
    ((fresh [Pins.ofInstr (.dec8 1)]).pins.rst = false ∧ (fresh [Pins.ofInstr (.dec8 1)]).dec.v2 = false ∧
      (fresh [Pins.ofInstr (.dec8 1)]).pins.dec.inValid = true) ∧
    ((full [Pins.idle]).pins.rst = false ∧ (full [Pins.idle]).dec.v1 = true ∧
      (full [Pins.idle]).pins.dec.inValid = false ∧ (full [Pins.idle]).pins.dec.outReady = true) ∧
    ((full [notReady]).pins.rst = false ∧ (full [notReady]).dec.v1 = true ∧ (full [notReady]).dec.v2 = true ∧
      (full [notReady]).pins.dec.outReady = false) := by decide

theorem witness_StalledPipelinesWait :
    (full [notReady]).pins.rst = false ∧ (full [notReady]).dec.v1 = true ∧ (full [notReady]).dec.v2 = true ∧
    (full [notReady]).pins.dec.outReady = false ∧ (full [notReady]).enc.v1 = true ∧ (full [notReady]).enc.v2 = true ∧
    (full [notReady]).pins.enc.outReady = false := by decide

theorem witness_PipelineWires : (full []).dec.v2 = true ∧ (full []).enc.v2 = true := by decide

/-- DEC full, an edge that takes the result and a further beat. -/
theorem witness_DecStreamAgreementKept :
    (full [Pins.ofInstr (.dec16 0)]).DecAgrees ∧ ∃ t, step (full [Pins.ofInstr (.dec16 0)]) = .next t :=
  ⟨by unfold State.DecAgrees; decide +kernel, _, step_eq_edge _⟩

theorem witness_DecPipelineDrains :
    (full [Pins.idle, Pins.idle]).DecAgrees ∧ (full [Pins.idle, Pins.idle]).inputs = [Pins.idle, Pins.idle] ∧
    Pins.idle.rst = false ∧ Pins.idle.dec.inValid = false ∧ Pins.idle.dec.outReady = true :=
  ⟨by unfold State.DecAgrees; decide +kernel, by decide⟩

/-- A fair host, and one that never takes a result. -/
theorem witness_DecPipelineDrains_host :
    ((full []).DecAgrees ∧ NoReset (fun _ => Pins.ofByte 1) ∧ FairOn .decOut (fun _ => Pins.ofByte 1) (full []) ∧
      hostRun (fun _ => Pins.ofByte 1) 0 (full []) = .next (full [])) ∧
    NoReset (fun _ => notReady) ∧ notReady.dec.outReady = false ∧ (full []).dec.v2 = true :=
  ⟨⟨by unfold State.DecAgrees; decide +kernel, fun _ => rfl, (fairHost_ofByte 1 _).1, rfl⟩, fun _ => rfl, by decide⟩

theorem witness_DecBufferAnswered :
    let buffer := [Pins.ofInstr (.dec16 0xA5), Pins.ofInstr (.dec8 0xEF)]
    let s := fresh (buffer ++ [Pins.idle, Pins.idle])
    s.dec.v1 = false ∧ s.dec.v2 = false ∧ s.inputs = buffer ++ [Pins.idle, Pins.idle] ∧
    (∀ b ∈ buffer, b.rst = false ∧ b.dec.inValid = true ∧ b.dec.outReady = true) ∧
    Pins.idle.rst = false ∧ Pins.idle.dec.inValid = false ∧ Pins.idle.dec.outReady = true := by decide

theorem witness_BiasedMagnitudeRange : (-32768 : Int) ≤ -32768 ∧ (32767 : Int) ≤ 32767 := by decide

theorem witness_ComparatorTree :
    (segCompare 256).getD 1 false = true ∧ (132 ≤ (132 : Half).toNat ∧ (132 : Half).toNat ≤ 32767) ∧
    (132 ≤ (32767 : Half).toNat ∧ (32767 : Half).toNat ≤ 32767) ∧ 32768 ≤ (32768 : Half).toNat ∧
    (255 : Half).toNat = 2 ^ (0 + 8) - 1 ∧ (32767 : Half).toNat = 2 ^ (7 + 8) - 1 ∧ (256 : Half).toNat = 2 ^ (0 + 8) ∧
    (32768 : Half).toNat = 2 ^ (7 + 8) ∧ (255 : Half).toNat ≤ (256 : Half).toNat := by decide

/-- The clamp at 32636 (magnitude 32768), segment 0 at 123 (255), segment 1 at 124 (256), segment 7 at 32635 (32767). -/
theorem witness_EncodeFormula :
    (∀ i < 8, 2 ^ (i + 8) - 1 < ((32636 : Int) + 0x84).toNat) ∧ ((123 : Int) + 0x84).toNat ≤ 2 ^ (0 + 8) - 1 ∧
    (((124 : Int) + 0x84).toNat ≤ 2 ^ (1 + 8) - 1 ∧ ∀ i < 1, 2 ^ (i + 8) - 1 < ((124 : Int) + 0x84).toNat) ∧
    (((32635 : Int) + 0x84).toNat ≤ 2 ^ (7 + 8) - 1 ∧ ∀ i < 7, 2 ^ (i + 8) - 1 < ((32635 : Int) + 0x84).toNat) := by
  decide

theorem witness_EncodeClamp :
    32768 ≤ biasedMag 32636 ∧ 32768 ≤ biasedMag (-32636) ∧ (31612 : Int) ≤ 31612 ∧ (32635 : Int) ≤ 32635 ∧
    (-32635 : Int) ≤ -32635 ∧ (-31612 : Int) ≤ -31612 := by decide

/-- The first code's interval 0..3 and its mirror -3..-1, the last code's interval, and a code that is neither zero. -/
theorem witness_CodeIntervals :
    (max 0 ((16 + 0) * 2 ^ (0 + 3) - 132) ≤ (0 : Int) ∧ (3 : Int) ≤ (17 + 0) * 2 ^ (0 + 3) - 1 - 132) ∧
    ((132 - ((17 + 0) * 2 ^ (0 + 3) - 1) : Int) ≤ -3 ∧ (-1 : Int) ≤ min (-1) (132 - (16 + 0) * 2 ^ (0 + 3))) ∧
    (max 0 ((16 + 15) * 2 ^ (7 + 3) - 132) ≤ (31612 : Int) ∧ (32635 : Int) ≤ (17 + 15) * 2 ^ (7 + 3) - 1 - 132) ∧
    (((16 + 15) * 2 ^ (7 + 3) : Int) ≤ biasedMag 32635 ∧ (biasedMag 32635 : Int) ≤ (17 + 15) * 2 ^ (7 + 3) - 1) ∧
    ulawEncode 4 ≠ 0xFF ∧ ulawEncode 4 ≠ 0x7F := by decide

theorem witness_EncCompletes :
    ((fresh []).pins.rst = false ∧ (fresh []).enc.v1 = false) ∧
    ((full [Pins.idle]).pins.rst = false ∧ (full [Pins.idle]).enc.v1 = true ∧ (full [Pins.idle]).enc.v2 = true ∧
      (full [Pins.idle]).pins.enc.outReady = true) := by decide

theorem witness_EncResultLeaves :
    (full [Pins.idle]).pins.rst = false ∧ (full [Pins.idle]).pins.enc.outReady = true ∧ Pins.idle.rst = false ∧
    Pins.idle.enc.outReady = true := by decide

theorem witness_EncEdgeRule :
    ((fresh [Pins.ofInstr (.enc 0x8000)]).pins.rst = false ∧ (fresh [Pins.ofInstr (.enc 0x8000)]).enc.v2 = false ∧
      (fresh [Pins.ofInstr (.enc 0x8000)]).pins.enc.inValid = true) ∧
    ((full [notReady]).pins.rst = false ∧ (full [notReady]).enc.v1 = true ∧ (full [notReady]).enc.v2 = true ∧
      (full [notReady]).pins.enc.outReady = false) ∧
    (∀ i < 8, (segEnd.getD i 0).toNat < (0x8000 : Half).toNat) ∧
    ((0xFF : Half).toNat ≤ (segEnd.getD 0 0).toNat) ∧
    ((0x7FFF : Half).toNat ≤ (segEnd.getD 7 0).toNat ∧ ∀ i < 7, (segEnd.getD i 0).toNat < (0x7FFF : Half).toNat) := by
  decide

theorem witness_EncStreamAgreementKept :
    (full [Pins.ofInstr (.enc 4)]).EncAgrees ∧ ∃ t, step (full [Pins.ofInstr (.enc 4)]) = .next t :=
  ⟨by unfold State.EncAgrees; decide +kernel, _, step_eq_edge _⟩

theorem witness_EncPipelineDrains :
    (full [Pins.idle, Pins.idle]).EncAgrees ∧ (full [Pins.idle, Pins.idle]).inputs = [Pins.idle, Pins.idle] ∧
    Pins.idle.rst = false ∧ Pins.idle.enc.inValid = false ∧ Pins.idle.enc.outReady = true :=
  ⟨by unfold State.EncAgrees; decide +kernel, by decide⟩

/-- A fair host, and one that never takes a byte. -/
theorem witness_EncPipelineDrains_host :
    ((full []).EncAgrees ∧ NoReset (fun _ => Pins.ofByte 1) ∧ FairOn .encOut (fun _ => Pins.ofByte 1) (full []) ∧
      hostRun (fun _ => Pins.ofByte 1) 0 (full []) = .next (full [])) ∧
    NoReset (fun _ => notReady) ∧ notReady.enc.outReady = false ∧ (full []).enc.v2 = true :=
  ⟨⟨by unfold State.EncAgrees; decide +kernel, fun _ => rfl, (fairHost_ofByte 1 _).2.1, rfl⟩, fun _ => rfl, by decide⟩

theorem witness_EncBufferAnswered :
    let buffer := [Pins.ofInstr (.enc 0), Pins.ofInstr (.enc 0x8000)]
    let s := fresh (buffer ++ [Pins.idle, Pins.idle])
    s.enc.v1 = false ∧ s.enc.v2 = false ∧ s.inputs = buffer ++ [Pins.idle, Pins.idle] ∧
    (∀ b ∈ buffer, b.rst = false ∧ b.enc.inValid = true ∧ b.enc.outReady = true) ∧
    Pins.idle.rst = false ∧ Pins.idle.enc.inValid = false ∧ Pins.idle.enc.outReady = true := by decide

theorem witness_MagnitudeRangeKept :
    (full [Pins.ofInstr (.enc 0x8000)]).MagInRange ∧ (full [Pins.ofInstr (.enc 0x8000)]).enc.v1 = true ∧
    ∃ t, step (full [Pins.ofInstr (.enc 0x8000)]) = .next t :=
  ⟨fun _ => by decide, rfl, _, step_eq_edge _⟩

theorem witness_WrapCompletes :
    (fresh []).pins.rst = false ∧ (fresh []).wav.state = .idle ∧ (0xFFFFFFD3 : Word).toNat ≤ 0xFFFFFFD3 := by decide

/-- The smallest length that overflows, a command that does not, and edges that are no reset edges. -/
theorem witness_WrapLengthOverflow :
    (fresh []).pins.rst = false ∧ (fresh []).wav.state = .idle ∧ (0xFFFFFFD4 : Word).toNat > 0xFFFFFFD3 ∧
    (∃ t, exec (.wrap true 16 1 8000 0xFFFFFFD3) (fresh []) = .next t) ∧
    2 ≤ [Pins.ofInstr (.wrap true 16 1 8000 0), notReady].length ∧
    ∀ p ∈ [Pins.ofInstr (.wrap true 16 1 8000 0), notReady], p.rst = false :=
  ⟨by decide, by decide, by decide, ⟨_, rfl⟩, by decide, by decide⟩

theorem witness_WrapWaitsWhileBusy :
    ((wavAt .header 0 4 []).pins.rst = false ∧ (wavAt .header 0 4 []).wav.state ≠ .idle) ∧
    (wavAt .payload 43 4 []).wav.state ≠ .idle ∧ (wavAt .fault 0 4 []).wav.state ≠ .idle := by decide

/-- No command, the largest length that gives a frame, the smallest that does not; and a state that is not IDLE. -/
theorem witness_WavIdleEdge :
    ((fresh []).pins.rst = false ∧ (fresh []).wav.state = .idle ∧ (fresh []).pins.wav.cmdValid = false) ∧
    ((fresh [Pins.ofInstr (.wrap true 16 1 8000 0xFFFFFFD3)]).pins.wav.cmdValid = true ∧
      (fresh [Pins.ofInstr (.wrap true 16 1 8000 0xFFFFFFD3)]).pins.wav.cmdLen = 0xFFFFFFD3) ∧
    ((fresh [Pins.ofInstr (.wrap true 16 1 8000 0xFFFFFFD4)]).pins.wav.cmdValid = true ∧
      (fresh [Pins.ofInstr (.wrap true 16 1 8000 0xFFFFFFD4)]).pins.wav.cmdLen = 0xFFFFFFD4) ∧
    ((wavAt .fault 0 4 []).pins.rst = false ∧ (wavAt .fault 0 4 []).wav.state ≠ .idle) := by decide

/-- The host not ready; index 42; index 43 with and without a payload to come. -/
theorem witness_WavHeaderEdge :
    ((wavAt .header 42 4 [notReady]).pins.rst = false ∧ (wavAt .header 42 4 [notReady]).wav.state = .header ∧
      (wavAt .header 42 4 [notReady]).pins.wav.outReady = false) ∧
    ((wavAt .header 42 4 []).pins.rst = false ∧ (wavAt .header 42 4 []).pins.wav.outReady = true ∧
      (wavAt .header 42 4 []).wav.idx.toNat < 43) ∧
    ((wavAt .header 43 0 []).wav.state = .header ∧ ¬ (wavAt .header 43 0 []).wav.idx.toNat < 43 ∧
      (wavAt .header 43 0 []).wav.rem.toNat = 0) ∧
    ((wavAt .header 43 1 []).wav.state = .header ∧ (wavAt .header 43 1 []).wav.rem.toNat ≠ 0) := by decide

/-- PAYLOAD entered with one byte to pass. -/
theorem witness_WavPayloadEdge_entry :
    ∃ t, step (wavAt .header 43 1 []) = .next t ∧ t.wav.state = .payload ∧ (wavAt .header 43 1 []).wav.state ≠ .payload :=
  ⟨_, step_eq_edge _, by decide +kernel, by decide⟩

/-- Two bytes to pass, and two edges at which they are offered and taken. -/
theorem witness_WavPayloadEdge_run :
    let ps := [Pins.ofByte 3, Pins.ofByte 4]
    let s := wavAt .payload 43 2 (ps ++ [])
    s.wav.state = .payload ∧ 1 ≤ s.wav.rem.toNat ∧ s.inputs = ps ++ [] ∧ ps.length = s.wav.rem.toNat ∧
    ∀ h ∈ ps, h.rst = false ∧ h.wav.outReady = true ∧ h.wav.inValid = true := by decide

/-- A byte passing as the last and as one before it; no byte offered; a state that is not PAYLOAD. -/
theorem witness_WavPayloadEdge :
    ((wavAt .payload 43 1 [Pins.ofByte 4]).pins.rst = false ∧ (wavAt .payload 43 1 [Pins.ofByte 4]).wav.state = .payload ∧
      (wavAt .payload 43 1 [Pins.ofByte 4]).pins.wav.inValid = true ∧
      (wavAt .payload 43 1 [Pins.ofByte 4]).pins.wav.outReady = true ∧
      (wavAt .payload 43 1 [Pins.ofByte 4]).wav.rem.toNat = 1) ∧
    (wavAt .payload 43 2 [Pins.ofByte 4]).wav.rem.toNat ≠ 1 ∧
    ((wavAt .payload 43 2 []).pins.rst = false ∧ (wavAt .payload 43 2 []).wav.state = .payload ∧
      (wavAt .payload 43 2 []).pins.wav.inValid = false) ∧
    ((fresh [Pins.ofByte 4]).pins.rst = false ∧ (fresh [Pins.ofByte 4]).wav.state ≠ .payload) := by decide

theorem witness_WavFaultEdge :
    ((wavAt .fault 0 0xFFFFFFD4 []).wav.state = .fault ∧ (wavAt .fault 0 0xFFFFFFD4 []).pins.rst = false) ∧
    ((wavAt .fault 0 0xFFFFFFD4 [Pins.resetting]).wav.state = .fault ∧
      (wavAt .fault 0 0xFFFFFFD4 [Pins.resetting]).pins.rst = true) := by decide

theorem witness_SequencerTransitions : ∃ t, step (wavAt .header 43 1 []) = .next t := ⟨_, step_eq_edge _⟩

theorem witness_WavOutputs :
    (fresh []).wav.state = .idle ∧ (wavAt .header 43 0 []).wav.state = .header ∧
    (wavAt .payload 43 1 []).wav.state = .payload ∧ (wavAt .fault 0 0 []).wav.state = .fault := by decide

/-- An edge that enters FAULT. -/
theorem witness_WrapLengthOverflow_entry :
    let s := fresh [Pins.ofInstr (.wrap true 16 1 8000 0xFFFFFFD4)]
    ∃ t, step s = .next t ∧ t.wav.state = .fault ∧ s.wav.state ≠ .fault :=
  ⟨_, step_eq_edge _, by decide +kernel, by decide⟩

theorem witness_HeaderLayout :
    0xFFFFFFD3 ≤ 0xFFFFFFD3 ∧ (0xFFFF < 2 ^ 16 ∧ 0xFFFFFFFF < 2 ^ 32) ∧ (wavAt .header 43 4 []).wav.idx.toNat ≤ 43 := by
  decide

theorem witness_FieldSerialisation :
    (0 < 4 ∧ 3 < 4) ∧ 0xFFFFFFFF < 2 ^ (8 * 4) ∧ 0 < 2 ^ (8 * 0) ∧
    (40, 4) ∈ [(4, 4), (16, 4), (20, 2), (22, 2), (24, 4), (28, 4), (32, 2), (34, 2), (40, 4)] ∧ 36 ∈ [0, 8, 12, 36] := by
  decide

theorem witness_FrameBytes :
    44 + (List.replicate 0xFFFFFFD3 (0 : Byte)).length ≤ 0xFFFFFFFF ∧
    44 + (List.replicate 0xFFFFFFD4 (0 : Byte)).length > 0xFFFFFFFF := by
  rw [List.length_replicate, List.length_replicate]; decide

/-- A header about to end, with the streams of the command W2. -/
def headerEnding : State :=
  { wavAt .header 43 4 [] with
    wavStreams := { cmds := [w2], payload := [], out := unmarked (w2.header.take 43) } }

/-- The last payload byte of W2 on offer. -/
def payloadEnding : State :=
  { wavAt .payload 43 1 [Pins.ofByte 4] with
    wavStreams := { cmds := [w2], payload := [1, 2, 3], out := unmarked (w2.header ++ [1, 2, 3]) } }

/-- After a command whose length overflows. -/
def overflowed : State :=
  { wavAt .fault 0 0xFFFFFFD4 [] with
    wavStreams := { cmds := [{ w2 with len := 0xFFFFFFD4 }], payload := [], out := [] } }

/-- Each of the four states of the sequencer. -/
theorem witness_WavStreamAgreementKept :
    ((fresh [Pins.ofInstr (.wrap true 16 1 8000 4)]).WavAgrees ∧
      ∃ t, step (fresh [Pins.ofInstr (.wrap true 16 1 8000 4)]) = .next t) ∧
    (headerEnding.WavAgrees ∧ ∃ t, step headerEnding = .next t) ∧
    (payloadEnding.WavAgrees ∧ ∃ t, step payloadEnding = .next t) ∧
    (overflowed.WavAgrees ∧ ∃ t, step overflowed = .next t) := by
  refine ⟨⟨⟨by simp [fresh, State.reset], rfl, rfl⟩, _, step_eq_edge _⟩, ⟨?_, _, step_eq_edge _⟩,
    ⟨?_, _, step_eq_edge _⟩, ⟨?_, _, step_eq_edge _⟩⟩
  · exact ⟨[], [], rfl, ⟨by simp, rfl, rfl⟩, by decide, by decide, rfl⟩
  · exact ⟨[], w2, [], [1, 2, 3], [], rfl, rfl, ⟨by simp, rfl, rfl⟩, by decide, by decide, by decide, rfl⟩
  · exact ⟨[], rfl, ⟨by simp, rfl, rfl⟩, by decide⟩

/-- A payload of four bytes, and none. -/
theorem witness_WrapFrameLeaves :
    let cmd := Pins.ofInstr (.wrap true 16 1 8000 4)
    let header := List.replicate 44 Pins.idle
    let payload := [Pins.ofByte 1, Pins.ofByte 2, Pins.ofByte 3, Pins.ofByte 4]
    let s := fresh (cmd :: (header ++ (payload ++ [])))
    s.wav.state = .idle ∧ s.inputs = cmd :: (header ++ (payload ++ [])) ∧ cmd.rst = false ∧ cmd.wrapCmd = some w2 ∧
    header.length = 44 ∧ (∀ h ∈ header, h.rst = false ∧ h.wav.outReady = true) ∧ payload.length = w2.len.toNat ∧
    (∀ h ∈ payload, h.rst = false ∧ h.wav.outReady = true ∧ h.wav.inValid = true) ∧ w2.len.toNat ≤ 0xFFFFFFD3 ∧
    ([] : List Pins).length = ({ w2 with len := 0 } : WrapCmd).len.toNat := by decide +kernel

/-- A fair host that feeds the payload, with WAV in PAYLOAD; a host that never takes a byte; and one that never offers one. -/
theorem witness_WrapFrameLeaves_host :
    (NoReset (fun _ => Pins.ofByte 1) ∧ FairOn .wavOut (fun _ => Pins.ofByte 1) (wavAt .payload 43 4 []) ∧
      FeedsPayload (fun _ => Pins.ofByte 1) (wavAt .payload 43 4 []) ∧
      SteadyPayload (fun _ => Pins.ofByte 1) (wavAt .payload 43 4 []) ∧
      hostRun (fun _ => Pins.ofByte 1) 0 (wavAt .payload 43 4 []) = .next (wavAt .payload 43 4 []) ∧
      (wavAt .payload 43 4 []).wav.state ≠ .fault) ∧
    (NoReset (fun _ => notReady) ∧ notReady.wav.outReady = false ∧ (wavAt .header 0 4 []).wav.state = .header) ∧
    NoReset (fun _ => Pins.idle) ∧ Pins.idle.wav.inValid = false ∧ (wavAt .payload 43 4 []).wav.state = .payload :=
  ⟨⟨fun _ => rfl, (fairHost_ofByte 1 _).2.2.1, (fairHost_ofByte 1 _).2.2.2, steadyPayload_ofByte 1 _, rfl, by decide⟩,
    ⟨fun _ => rfl, by decide⟩, fun _ => rfl, by decide⟩

theorem witness_LastOncePerFrame :
    ([1, 2, 3, 4] : List Byte).length = w2.len.toNat ∧ w2.len.toNat ≤ 0xFFFFFFD3 ∧
    47 < (frameOf w2 [1, 2, 3, 4]).length ∧ State.reset.WavAgrees := by
  exact ⟨by decide, by decide, by decide +kernel, by simp [State.reset], rfl, rfl⟩

theorem witness_ResetEdge :
    (full [Pins.resetting, Pins.resetting]).pins.rst = true ∧
    (edge (full [Pins.resetting, Pins.resetting])).pins.rst = true := by decide +kernel

theorem witness_StepRunsTheOfferedOperations :
    let p := Pins.ofInstr (.dec8 0xA5)
    let s := full [p]
    decode ⟨.decIn, (decBeatWord s.pins.dec.inDepth8 s.pins.dec.inData).toNat⟩ = .ok (.dec8 0xA5) ∧
    decode ⟨.encIn, s.pins.enc.inData.toNat⟩ = .ok (.enc 0) ∧
    decode ⟨.wavCmd, (wrapCmdWord s.pins.wav.cmdLe s.pins.wav.cmdBits s.pins.wav.cmdChannels s.pins.wav.cmdRate
      s.pins.wav.cmdLen).toNat⟩ = .ok (.wrap false 0 0 0 0) := by decide

/-- The boundary words of the reading of log 11. -/
theorem witness_FetchedWordRuns :
    decodeTableWord 16 0 = some (.dec16 0) ∧ decodeTableWord 16 511 = some (.dec8 0xFF) ∧
    decodeTableWord 16 512 = some (.enc 512) ∧ decodeTableWord 0 0 = some (.wrap false 0 0 0 0) := by decide

/-- A run that has ended well with a reset edge still to come (R221), and one with none. -/
theorem witness_QuiescentBlockHolds :
    ((fresh [Pins.resetting]).Quiescent ∧ (fresh [Pins.resetting]).pins.Silent ∧ (fresh [Pins.resetting]).EndedWell) ∧
    (fresh [Pins.idle]).pins.rst = false ∧ (fresh [Pins.idle]).pins.Silent ∧ (fresh [Pins.idle]).EndedWell := by
  unfold State.EndedWell State.Quiescent Pins.Silent
  decide

/-- A fair host, WAV in HEADER, and no further operation on offer. -/
theorem witness_QuiescentBlockHolds_fair :
    NoReset (fun _ => Pins.ofByte 1) ∧ FairHost (fun _ => Pins.ofByte 1) (wavAt .header 0 4 []) ∧
    SteadyPayload (fun _ => Pins.ofByte 1) (wavAt .header 0 4 []) ∧
    hostRun (fun _ => Pins.ofByte 1) 0 (wavAt .header 0 4 []) = .next (wavAt .header 0 4 []) ∧
    (wavAt .header 0 4 []).wav.state ≠ .fault ∧
    ∀ k, 0 ≤ k → (Pins.ofByte 1).dec.inValid = false ∧ (Pins.ofByte 1).enc.inValid = false ∧
      (Pins.ofByte 1).wav.cmdValid = false :=
  ⟨fun _ => rfl, fairHost_ofByte 1 _, steadyPayload_ofByte 1 _, rfl, by decide, fun _ _ => by decide⟩

theorem witness_OperationFrames :
    (∃ t, exec (.dec16 0xA5) (full [Pins.idle]) = .next t) ∧ (∃ t, exec (.dec8 0xA5) (full [Pins.idle]) = .next t) ∧
    (∃ t, exec (.enc 1) (full [Pins.idle]) = .next t) ∧
    ∃ t, exec (.wrap true 16 1 8000 4) (full [Pins.idle]) = .next t := ⟨⟨_, rfl⟩, ⟨_, rfl⟩, ⟨_, rfl⟩, ⟨_, rfl⟩⟩

/-- WAV the same in both states, DEC and ENC full in one and empty in the other; and DEC and ENC the same, WAV not. -/
theorem witness_UnitsIndependent :
    ((∃ t, step (full []) = .next t) ∧ (∃ t, step (fresh []) = .next t) ∧
      ∃ t, step (wavAt .header 0 4 []) = .next t) ∧
    ((full []).pins.rst = (fresh []).pins.rst ∧ (full []).wav = (fresh []).wav ∧
      (full []).wavStreams = (fresh []).wavStreams ∧ (full []).pins.wav = (fresh []).pins.wav ∧
      (full []).dec ≠ (fresh []).dec ∧ (full []).enc ≠ (fresh []).enc) ∧
    ((fresh []).dec = (wavAt .header 0 4 []).dec ∧ (fresh []).decStreams = (wavAt .header 0 4 []).decStreams ∧
      (fresh []).enc = (wavAt .header 0 4 []).enc ∧ (fresh []).encStreams = (wavAt .header 0 4 []).encStreams ∧
      (fresh []).wav ≠ (wavAt .header 0 4 []).wav) :=
  ⟨⟨⟨_, step_eq_edge _⟩, ⟨_, step_eq_edge _⟩, _, step_eq_edge _⟩, by decide, by decide⟩

/-- Two states after a reset edge that differ in registers R39 leaves unspecified. -/
theorem witness_UnspecifiedRegistersUnobservable :
    let t : State :=
      { State.reset with
        dec := { State.reset.dec with a1 := 0xA5, y2 := 0x1234 }
        enc := { State.reset.enc with mag1 := 0xFFFF, b2 := 0x55 }
        wav := { State.reset.wav with rem := 7, idx := 63, rate := 8000 } }
    State.reset.SameGuarded t ∧ State.reset ≠ t := by
  constructor
  · exact ⟨rfl, rfl, rfl, rfl, rfl, ⟨rfl, rfl, nofun, nofun⟩, ⟨rfl, rfl, nofun, nofun⟩, rfl, nofun, nofun⟩
  · decide

theorem witness_BeatsFire :
    ((full [Pins.resetting]).pins.rst = true ∧ ∃ t, step (full [Pins.resetting]) = .next t) ∧
    (full [Pins.ofInstr (.dec8 0xA5)]).pins.rst = false ∧ ∃ t, step (full [Pins.ofInstr (.dec8 0xA5)]) = .next t :=
  ⟨⟨by decide, _, step_eq_edge _⟩, by decide, _, step_eq_edge _⟩

/-- Beats on offer on the three output ports that do not fire; in PAYLOAD, the host keeps the byte steady. -/
theorem witness_OutputsSteady :
    ((full [notReady]).pins.rst = false ∧ decOutput (full [notReady]).dec = some ⟨0, false⟩ ∧
      (full [notReady]).fires .decOut = false ∧ encOutput (full [notReady]).enc = some 0xFF ∧
      (full [notReady]).fires .encOut = false ∧ ∃ t, step (full [notReady]) = .next t) ∧
    let p := { notReady with wav := { notReady.wav with inValid := true, inData := 4 } }
    let s := wavAt .payload 43 1 [p, p]
    s.pins.rst = false ∧ wavOutput s.pins.wav.inValid s.pins.wav.inData s.wav = some ⟨4, true⟩ ∧
    s.fires .wavOut = false ∧ step s = .next (edge s) ∧ (edge s).pins.wav.inValid = s.pins.wav.inValid ∧
    (edge s).pins.wav.inData = s.pins.wav.inData := by
  refine ⟨⟨by decide, by decide, by decide, by decide, by decide, _, step_eq_edge _⟩, ?_⟩
  exact ⟨by decide, by decide, by decide, step_eq_edge _, by decide +kernel, by decide +kernel⟩

end Sys2Proof.Tests
end

namespace Sys2Proof.Machine

/-! ### What each operation answers: its unit's edge with the operation's beat on offer -/

/-- 40_decode.md R106. -/
@[simp] theorem exec_dec16 (u : Byte) (s : State) : exec (.dec16 u) s = .next (decEdge (some ⟨false, u⟩) s) := rfl

/-- 40_decode.md R107. -/
@[simp] theorem exec_dec8 (u : Byte) (s : State) : exec (.dec8 u) s = .next (decEdge (some ⟨true, u⟩) s) := rfl

/-- 41_encode.md R125. -/
@[simp] theorem exec_enc (w : Half) (s : State) : exec (.enc w) s = .next (encEdge (some w) s) := rfl

/-- 42_wav_wrap.md R140; a length overflow is one of the cases of `wavEdge`, so a next state too. -/
@[simp] theorem exec_wrap (le : Bool) (bits channels : Half) (rate len : Word) (s : State) :
    exec (.wrap le bits channels rate len) s = .next (wavEdge (some ⟨le, bits, channels, rate, len⟩) s) := rfl

/-- Every operation is total (00_scope.md R7). -/
theorem exec_answers (i : Instr) (s : State) : ∃ t, exec i s = .next t := by
  cases i with
  | dec16 u => exact ⟨_, exec_dec16 u s⟩
  | dec8 u => exact ⟨_, exec_dec8 u s⟩
  | enc w => exact ⟨_, exec_enc w s⟩
  | wrap le bits channels rate len => exact ⟨_, exec_wrap le bits channels rate len s⟩

/-- Settles O52: a step answers `edge`, and an operation answers its unit's edge. -/
theorem everyStepAnswers : Obligations.EveryStepAnswers :=
  fun s => ⟨⟨edge s, step_eq_edge s⟩, fun i => exec_answers i s⟩

end Sys2Proof.Machine

namespace Sys2Proof.Machine

/-! ### What a unit's edge leaves unchanged (10_state.md R30): the rest of the state, and what the inputs are to show -/

theorem decEdge_frame (o : Option DecBeat) (s : State) :
    (decEdge o s).enc = s.enc ∧ (decEdge o s).wav = s.wav ∧ (decEdge o s).encStreams = s.encStreams ∧
      (decEdge o s).wavStreams = s.wavStreams ∧ (decEdge o s).inputs = s.inputs ∧ (decEdge o s).held = s.held := by
  simp

theorem encEdge_frame (o : Option Half) (s : State) :
    (encEdge o s).dec = s.dec ∧ (encEdge o s).wav = s.wav ∧ (encEdge o s).decStreams = s.decStreams ∧
      (encEdge o s).wavStreams = s.wavStreams ∧ (encEdge o s).inputs = s.inputs ∧ (encEdge o s).held = s.held := by
  simp

theorem wavEdge_frame (o : Option WrapCmd) (s : State) :
    (wavEdge o s).dec = s.dec ∧ (wavEdge o s).enc = s.enc ∧ (wavEdge o s).decStreams = s.decStreams ∧
      (wavEdge o s).encStreams = s.encStreams ∧ (wavEdge o s).inputs = s.inputs ∧ (wavEdge o s).held = s.held := by
  simp

/-- Settles O56: each operation answers its unit's edge, and an edge has its unit's frame. -/
theorem operationFrames : Obligations.OperationFrames := by
  intro s t
  refine ⟨?dec, ?enc, ?wrap⟩
  case dec =>
    rintro u (h | h)
    · rw [exec_dec16] at h; cases h; exact decEdge_frame _ s
    · rw [exec_dec8] at h; cases h; exact decEdge_frame _ s
  case enc => intro w h; rw [exec_enc] at h; cases h; exact encEdge_frame _ s
  case wrap => intro le bits channels rate len h; rw [exec_wrap] at h; cases h; exact wavEdge_frame _ s

/-! ### The beat a port shows is read off its own unit's pins (10_state.md R21 to R23) -/

theorem Pins.decBeat_congr {p q : Pins} (h : p.dec = q.dec) : p.decBeat = q.decBeat := by
  unfold Pins.decBeat; rw [h]

theorem Pins.encBeat_congr {p q : Pins} (h : p.enc = q.enc) : p.encBeat = q.encBeat := by
  unfold Pins.encBeat; rw [h]

theorem Pins.wrapCmd_congr {p q : Pins} (h : p.wav = q.wav) : p.wrapCmd = q.wrapCmd := by
  unfold Pins.wrapCmd; rw [h]

/-- Settles O57: the fields of `edge` read `rst` and one unit's registers, streams and pins. -/
theorem unitsIndependent : Obligations.UnitsIndependent := by
  intro s s' t t' hs hs' hrst
  obtain rfl := step_next_iff.mp hs
  obtain rfl := step_next_iff.mp hs'
  refine ⟨?dec, ?enc, ?wav⟩
  case dec =>
    intro hregs hstreams hpins
    simp only [edge_dec, edge_decStreams, hrst, hregs, hstreams, hpins, Pins.decBeat_congr hpins, and_self]
  case enc =>
    intro hregs hstreams hpins
    simp only [edge_enc, edge_encStreams, hrst, hregs, hstreams, hpins, Pins.encBeat_congr hpins, and_self]
  case wav =>
    intro hregs hstreams hpins
    simp only [edge_wav, edge_wavStreams, hrst, hregs, hstreams, hpins, Pins.wrapCmd_congr hpins, and_self]

/-! ### The magnitude in stage 1 of ENC (10_state.md R28) -/

/-- 41_encode.md R121: the biased magnitude of a sample on the port fits stage 1 with no wraparound. -/
theorem stage1Mag_bounds (w : Half) :
    132 ≤ (BitVec.ofNat 16 (biasedMag w.toInt)).toNat ∧ (BitVec.ofNat 16 (biasedMag w.toInt)).toNat ≤ 32900 := by
  obtain ⟨hmin, hmag⟩ := biasedMag_eq w.toInt
  have hlo : -32768 ≤ w.toInt := BitVec.le_toInt w
  have hhi : w.toInt < 32768 := BitVec.toInt_lt
  have hmax : biasedMag w.toInt ≤ 32900 := by split at hmag <;> omega
  rw [BitVec.toNat_ofNat, Nat.mod_eq_of_lt (by omega)]
  exact ⟨hmin, hmax⟩

/-- A stage 1 that is full after an edge was full with the same magnitude before it, or took a sample at it (R175). -/
theorem encNext_mag1_cases {rst ready : Bool} {o : Option Half} {r : EncRegs} (h : (encNext rst o ready r).v1 = true) :
    (r.v1 = true ∧ (encNext rst o ready r).mag1 = r.mag1) ∨
      ∃ w, o = some w ∧ (encNext rst o ready r).mag1 = BitVec.ofNat 16 (biasedMag w.toInt) := by
  cases rst with
  | true => simp [EncRegs.clear] at h
  | false =>
    cases hfree : encS1Free r ready with
    | false =>
      obtain ⟨h1, h2, rfl⟩ := encS1Free_eq_false.mp hfree
      exact .inl ⟨h1, by rw [encNext_stalled h1 h2]⟩
    | true =>
      rw [encNext_free hfree] at h ⊢
      obtain ⟨w, rfl⟩ := Option.isSome_iff_exists.mp h
      exact .inr ⟨w, rfl, rfl⟩

/-- Settles O34: a full stage 1 keeps its magnitude or takes that of a sample. -/
theorem magnitudeRangeKept : Obligations.MagnitudeRangeKept := by
  intro s t hs hstep hv1
  obtain rfl := step_next_iff.mp hstep
  rw [edge_enc] at hv1 ⊢
  obtain ⟨hfull, hmag⟩ | ⟨w, -, hmag⟩ := encNext_mag1_cases hv1
  · rw [hmag]; exact hs hfull
  · rw [hmag]; exact stage1Mag_bounds w

/-! ### The state after a reset edge (10_state.md R39) -/

theorem reset_quiescent : State.reset.Quiescent := ⟨rfl, rfl, rfl, rfl, rfl⟩

/-- No commands, no payload and no output agree. -/
theorem Delivered.nil : Delivered [] [] [] := ⟨by simp, rfl, rfl⟩

/-- The reset state shows no beat and is ready for each operation, whatever the host drives. -/
theorem reset_shown (inputs : List Pins) (held : Pins) :
    ((State.reset.setInputs inputs).setHeld held).shown =
      { decOut := none, encOut := none, wavOut := none, decInReady := true, encInReady := true, wavCmdReady := true,
        wavInReady := false, wavErr := false } := rfl

/-- Settles O51: with the valid bits 0 and the sequencer in IDLE nothing is shown, and with empty streams nothing is
owed. -/
theorem resetState : Obligations.ResetState :=
  ⟨reset_quiescent, reset_shown, rfl, rfl, Delivered.nil, nofun⟩

/-! ### Registers that differ only where their guard is off (10_state.md R39), unit by unit

An edge reads a register only where its guard is on, and turns a guard on only by writing what it guards. -/

/-- DEC's part of `State.SameGuarded`. -/
structure DecRegs.SameGuarded (a b : DecRegs) : Prop where
  v1 : a.v1 = b.v1
  v2 : a.v2 = b.v2
  stage1 : a.v1 = true → a.a1 = b.a1 ∧ a.d1 = b.d1
  stage2 : a.v2 = true → a.y2 = b.y2 ∧ a.d2 = b.d2

/-- ENC's part of `State.SameGuarded`. -/
structure EncRegs.SameGuarded (a b : EncRegs) : Prop where
  v1 : a.v1 = b.v1
  v2 : a.v2 = b.v2
  stage1 : a.v1 = true → a.neg1 = b.neg1 ∧ a.mag1 = b.mag1
  stage2 : a.v2 = true → a.b2 = b.b2

/-- WAV's part of `State.SameGuarded`. -/
structure WavRegs.SameGuarded (a b : WavRegs) : Prop where
  state : a.state = b.state
  header : a.state = .header → a = b
  payload : a.state = .payload → a.rem = b.rem

/-- `State.SameGuarded`, taken apart into the units. -/
theorem State.sameGuarded_iff {s t : State} : s.SameGuarded t ↔
    (s.inputs = t.inputs ∧ s.held = t.held) ∧
    (s.decStreams = t.decStreams ∧ s.encStreams = t.encStreams ∧ s.wavStreams = t.wavStreams) ∧
    s.dec.SameGuarded t.dec ∧ s.enc.SameGuarded t.enc ∧ s.wav.SameGuarded t.wav := by
  constructor
  · rintro ⟨hi, hh, hd, he, hw, ⟨d1, d2, d3, d4⟩, ⟨e1, e2, e3, e4⟩, w1, w2, w3⟩
    exact ⟨⟨hi, hh⟩, ⟨hd, he, hw⟩, ⟨d1, d2, d3, d4⟩, ⟨e1, e2, e3, e4⟩, ⟨w1, w2, w3⟩⟩
  · rintro ⟨⟨hi, hh⟩, ⟨hd, he, hw⟩, ⟨d1, d2, d3, d4⟩, ⟨e1, e2, e3, e4⟩, ⟨w1, w2, w3⟩⟩
    exact ⟨hi, hh, hd, he, hw, ⟨d1, d2, d3, d4⟩, ⟨e1, e2, e3, e4⟩, w1, w2, w3⟩

/-- A reset edge turns both guards of DEC off, so it makes any registers alike (70_reset_and_hazards.md R210). -/
theorem DecRegs.clear_sameGuarded (a b : DecRegs) : a.clear.SameGuarded b.clear := ⟨rfl, rfl, nofun, nofun⟩

namespace DecRegs.SameGuarded

variable {a b : DecRegs} (h : a.SameGuarded b) (ready : Bool)
include h

theorem decS2Free_eq : decS2Free a ready = decS2Free b ready := by unfold decS2Free; rw [h.v2]

theorem decS1Free_eq : decS1Free a ready = decS1Free b ready := by
  unfold decS1Free; rw [h.v1, h.decS2Free_eq]

theorem decOutput_eq : decOutput a = decOutput b := by
  unfold decOutput
  rw [← h.v2]
  split
  · obtain ⟨hy, hd⟩ := h.stage2 ‹_›
    rw [hy, hd]
  · rfl

theorem decStreamsNext_eq (rst : Bool) (o : Option DecBeat) (x : DecStreams) :
    decStreamsNext rst o ready a x = decStreamsNext rst o ready b x := by
  unfold decStreamsNext; rw [h.decS1Free_eq, h.decOutput_eq]

/-- Stage 2 reads stage 1 only if it is full (43_buffer_forms_and_handshake.md R174). -/
theorem decLoad2_keeps : (decLoad2 ready a).SameGuarded (decLoad2 ready b) := by
  unfold decLoad2
  rw [← h.decS2Free_eq, ← h.v1]
  split
  · split
    · obtain ⟨ha, hd⟩ := h.stage1 ‹_›
      exact ⟨rfl, rfl, h.stage1, fun _ => ⟨by rw [ha, hd], hd⟩⟩
    · exact ⟨rfl, rfl, h.stage1, nofun⟩
  · exact h

/-- Stage 1 is written by the beat it takes alone (R174). -/
theorem decLoad1_keeps (free : Bool) (o : Option DecBeat) : (decLoad1 free o a).SameGuarded (decLoad1 free o b) := by
  unfold decLoad1
  split
  · cases o with
    | some _ => exact ⟨rfl, h.v2, fun _ => ⟨rfl, rfl⟩, h.stage2⟩
    | none => exact ⟨rfl, h.v2, nofun, h.stage2⟩
  · exact h

theorem decNext_keeps (rst : Bool) (o : Option DecBeat) :
    (decNext rst o ready a).SameGuarded (decNext rst o ready b) := by
  unfold decNext
  split
  · exact a.clear_sameGuarded b
  · rw [h.decS1Free_eq]; exact (h.decLoad2_keeps ready).decLoad1_keeps _ o

end DecRegs.SameGuarded

/-- A reset edge turns both guards of ENC off, so it makes any registers alike (70_reset_and_hazards.md R210). -/
theorem EncRegs.clear_sameGuarded (a b : EncRegs) : a.clear.SameGuarded b.clear := ⟨rfl, rfl, nofun, nofun⟩

namespace EncRegs.SameGuarded

variable {a b : EncRegs} (h : a.SameGuarded b) (ready : Bool)
include h

theorem encS2Free_eq : encS2Free a ready = encS2Free b ready := by unfold encS2Free; rw [h.v2]

theorem encS1Free_eq : encS1Free a ready = encS1Free b ready := by
  unfold encS1Free; rw [h.v1, h.encS2Free_eq]

theorem encOutput_eq : encOutput a = encOutput b := by
  unfold encOutput
  rw [← h.v2]
  split
  · rw [h.stage2 ‹_›]
  · rfl

theorem encStreamsNext_eq (rst : Bool) (o : Option Half) (x : EncStreams) :
    encStreamsNext rst o ready a x = encStreamsNext rst o ready b x := by
  unfold encStreamsNext; rw [h.encS1Free_eq, h.encOutput_eq]

/-- Stage 2 reads stage 1 only if it is full (43_buffer_forms_and_handshake.md R175). -/
theorem encLoad2_keeps : (encLoad2 ready a).SameGuarded (encLoad2 ready b) := by
  unfold encLoad2
  rw [← h.encS2Free_eq, ← h.v1]
  split
  · split
    · obtain ⟨hneg, hmag⟩ := h.stage1 ‹_›
      exact ⟨rfl, rfl, h.stage1, fun _ => by rw [hneg, hmag]⟩
    · exact ⟨rfl, rfl, h.stage1, nofun⟩
  · exact h

/-- Stage 1 is written by the sample it takes alone (R175). -/
theorem encLoad1_keeps (free : Bool) (o : Option Half) : (encLoad1 free o a).SameGuarded (encLoad1 free o b) := by
  unfold encLoad1
  split
  · cases o with
    | some _ => exact ⟨rfl, h.v2, fun _ => ⟨rfl, rfl⟩, h.stage2⟩
    | none => exact ⟨rfl, h.v2, nofun, h.stage2⟩
  · exact h

theorem encNext_keeps (rst : Bool) (o : Option Half) :
    (encNext rst o ready a).SameGuarded (encNext rst o ready b) := by
  unfold encNext
  split
  · exact a.clear_sameGuarded b
  · rw [h.encS1Free_eq]; exact (h.encLoad2_keeps ready).encLoad1_keeps _ o

end EncRegs.SameGuarded

theorem WavRegs.SameGuarded.refl (a : WavRegs) : a.SameGuarded a := ⟨rfl, fun _ => rfl, fun _ => rfl⟩

/-- In IDLE and in FAULT no register but `wav_state` counts. -/
theorem WavRegs.SameGuarded.of_unguarded {a b : WavRegs} (hstate : a.state = b.state) (hh : a.state ≠ .header)
    (hp : a.state ≠ .payload) : a.SameGuarded b :=
  ⟨hstate, fun h => absurd h hh, fun h => absurd h hp⟩

/-- A reset edge enters IDLE, so it makes any registers alike (70_reset_and_hazards.md R210). -/
theorem WavRegs.clear_sameGuarded (a b : WavRegs) : a.clear.SameGuarded b.clear :=
  .of_unguarded rfl nofun nofun

namespace WavRegs.SameGuarded

variable {a b : WavRegs}

/-- A command overwrites every latch, `wav_rem` and `wav_idx` (42_wav_wrap.md R151). -/
theorem wavIdleEdge_keeps (hidle : a.state = .idle) (hstate : a.state = b.state) (cmd : Option WrapCmd) :
    (wavIdleEdge cmd a).SameGuarded (wavIdleEdge cmd b) := by
  cases cmd with
  | none =>
    show a.SameGuarded b
    exact of_unguarded hstate (by simp [hidle]) (by simp [hidle])
  | some c =>
    unfold wavIdleEdge
    dsimp only
    split
    · exact of_unguarded rfl nofun nofun
    · exact refl _

/-- PAYLOAD reads and writes `wav_rem` and `wav_state` alone (R153). -/
theorem wavPayloadEdge_keeps (hpay : a.state = .payload) (h : a.SameGuarded b) (inValid ready : Bool) :
    (wavPayloadEdge inValid ready a).SameGuarded (wavPayloadEdge inValid ready b) := by
  have hrem := h.payload hpay
  unfold wavPayloadEdge
  rw [← hrem]
  split
  · split
    · exact of_unguarded rfl nofun nofun
    · exact ⟨h.state, by simp [hpay], fun _ => rfl⟩
  · exact h

variable (h : a.SameGuarded b) (inValid ready : Bool)
include h

theorem wavNext_keeps (rst : Bool) (cmd : Option WrapCmd) :
    (wavNext rst cmd inValid ready a).SameGuarded (wavNext rst cmd inValid ready b) := by
  cases rst with
  | true => exact a.clear_sameGuarded b
  | false =>
    cases ha : a.state with
    | idle => rw [wavNext_idle ha, wavNext_idle (h.state ▸ ha)]; exact wavIdleEdge_keeps ha h.state cmd
    | header => rw [h.header ha]; exact refl _
    | payload =>
      rw [wavNext_payload ha, wavNext_payload (h.state ▸ ha)]; exact wavPayloadEdge_keeps ha h inValid ready
    | fault => rw [wavNext_fault ha, wavNext_fault (h.state ▸ ha)]; exact h

theorem wavCmdReady_eq : wavCmdReady a = wavCmdReady b := by unfold wavCmdReady; rw [h.state]

theorem wavInReady_eq : wavInReady a ready = wavInReady b ready := by unfold wavInReady; rw [h.state]

/-- The output reads the latches in HEADER only, and `wav_rem` in HEADER and PAYLOAD only (R150). -/
theorem wavOutput_eq (inData : Byte) : wavOutput inValid inData a = wavOutput inValid inData b := by
  cases ha : a.state with
  | header => rw [h.header ha]
  | payload => simp [wavOutput, ha, h.state ▸ ha, h.payload ha]
  | idle => simp [wavOutput, ha, h.state ▸ ha]
  | fault => simp [wavOutput, ha, h.state ▸ ha]

theorem wavStreamsNext_eq (rst : Bool) (cmd : Option WrapCmd) (inData : Byte) (x : WavStreams) :
    wavStreamsNext rst cmd inValid inData ready a x = wavStreamsNext rst cmd inValid inData ready b x := by
  unfold wavStreamsNext; rw [h.wavCmdReady_eq, h.wavInReady_eq, h.wavOutput_eq]

end WavRegs.SameGuarded

/-! ### The same, for the whole block -/

namespace State.SameGuarded

variable {s t : State} (h : s.SameGuarded t)
include h

theorem pins_eq : s.pins = t.pins := by
  obtain ⟨⟨hinputs, hheld⟩, -⟩ := State.sameGuarded_iff.mp h
  rw [State.pins, State.pins, hinputs, hheld]

theorem shown_eq : s.shown = t.shown := by
  obtain ⟨-, -, hdec, henc, hwav⟩ := State.sameGuarded_iff.mp h
  simp only [State.shown, State.readyOf, State.wavErr, h.pins_eq, hdec.decOutput_eq, hdec.decS1Free_eq,
    henc.encOutput_eq, henc.encS1Free_eq, hwav.wavOutput_eq, hwav.wavCmdReady_eq, hwav.wavInReady_eq, hwav.state]

theorem edge_keeps : (edge s).SameGuarded (edge t) := by
  obtain ⟨⟨hinputs, hheld⟩, ⟨hds, hes, hws⟩, hdec, henc, hwav⟩ := State.sameGuarded_iff.mp h
  rw [State.sameGuarded_iff]
  simp only [edge_inputs, edge_held, edge_decStreams, edge_encStreams, edge_wavStreams, edge_dec, edge_enc, edge_wav,
    h.pins_eq, hinputs, hheld, hds, hes, hws, hdec.decStreamsNext_eq, henc.encStreamsNext_eq, hwav.wavStreamsNext_eq,
    and_self, true_and]
  exact ⟨hdec.decNext_keeps _ _ _, henc.encNext_keeps _ _ _, hwav.wavNext_keeps _ _ _ _⟩

end State.SameGuarded

/-- Settles O58: no output and no edge reads a register whose guard is off. -/
theorem unspecifiedRegistersUnobservable : Obligations.UnspecifiedRegistersUnobservable :=
  fun s t h => ⟨h.shown_eq, edge s, edge t, step_eq_edge s, step_eq_edge t, h.edge_keeps⟩

end Sys2Proof.Machine

namespace Sys2Proof.Machine

/-! ### Decoding a word that fits its port (30_encoding.md R80, R81) -/

/-- R75: every DECBEAT is an operation. -/
theorem decode_decIn (w : BitVec 9) : decode ⟨.decIn, w.toNat⟩ = .ok (decodeDec w) := by
  simp only [decode, w.isLt, if_true, BitVec.ofNat_toNat, BitVec.setWidth_eq]

/-- R76: every ENCBEAT is an operation. -/
theorem decode_encIn (w : BitVec 16) : decode ⟨.encIn, w.toNat⟩ = .ok (decodeEnc w) := by
  simp only [decode, w.isLt, if_true, BitVec.ofNat_toNat, BitVec.setWidth_eq]

/-- R77: every WRAPCMD is an operation. -/
theorem decode_wavCmd (w : BitVec 97) : decode ⟨.wavCmd, w.toNat⟩ = .ok (decodeWrap w) := by
  simp only [decode, w.isLt, if_true, BitVec.ofNat_toNat, BitVec.setWidth_eq]

theorem decode_encode (i : Instr) : decode (encode i) = .ok i := by
  cases i with
  | dec16 u => rw [encode, decode_decIn, decodeDec_decBeatWord]; rfl
  | dec8 u => rw [encode, decode_decIn, decodeDec_decBeatWord]; rfl
  | enc s => rw [encode, decode_encIn, decodeEnc]
  | wrap le bits channels rate len => rw [encode, decode_wavCmd, decodeWrap_wrapCmdWord]

/-- Settles O1: each word decodes to the operation whose operands it lays out. -/
theorem decodeOfEncode : Obligations.DecodeOfEncode :=
  fun i _ => decode_encode i

/-- Settles O4: each printed word is the beat of the operation it stands for. -/
theorem printedWordsDecode : Obligations.PrintedWordsDecode :=
  have hs : BitVec.ofInt 16 (-1000) = 0xFC18 := by decide
  ⟨decode_encode (.dec16 0xA5), decode_encode (.dec8 0xA5), hs ▸ decode_encode (.enc 0xFC18),
    decode_encode (.wrap true 16 1 8000 4)⟩

/-! ### Ill-formed beats (R80, 20_memory.md R54) -/

theorem decode_notAnOperationPort {p : Port} (h : p.startsOperation = false) (w : Nat) :
    decode ⟨p, w⟩ = .error (.notAnOperationPort p) := by
  cases p with
  | decOut | encOut | wavIn | wavOut => rfl
  | decIn | encIn | wavCmd => cases h

theorem decode_tooWide {p : Port} (h : p.startsOperation = true) {w : Nat} (hw : 2 ^ p.width ≤ w) :
    decode ⟨p, w⟩ = .error (.tooWide p) := by
  cases p with
  | decIn | encIn | wavCmd => exact if_neg (Nat.not_lt.mpr hw)
  | decOut | encOut | wavIn | wavOut => cases h

/-- Settles O3: the port is looked at first, then the width of the word. -/
theorem illFormedBeatsRejected : Obligations.IllFormedBeatsRejected :=
  fun _ w => ⟨fun h => decode_notAnOperationPort h w, fun h hw => decode_tooWide h hw⟩

/-! ### Writing a decoded word down again -/

theorem ofBool_getLsbD {n : Nat} (x : BitVec n) (i : Nat) : BitVec.ofBool (x.getLsbD i) = x.extractLsb' i 1 := by
  ext j hj
  obtain rfl : j = 0 := by omega
  simp

/-- R75: the two fields of a DECBEAT fill its word. -/
theorem decBeatWord_fields (w : BitVec 9) : decBeatWord (w.getLsbD 8) (w.extractLsb' 0 8) = w := by
  rw [decBeatWord, ofBool_getLsbD]
  exact BitVec.extractLsb'_append_extractLsb' (w := 1) (len := 8)

/-- R77: the five fields of a WRAPCMD fill its word. -/
theorem wrapCmdWord_fields (w : BitVec 97) :
    wrapCmdWord (w.getLsbD 96) (w.extractLsb' 80 16) (w.extractLsb' 64 16) (w.extractLsb' 32 32)
      (w.extractLsb' 0 32) = w := by
  rw [wrapCmdWord, ofBool_getLsbD,
    BitVec.extractLsb'_append_extractLsb'_eq_extractLsb' (show 32 = 0 + 32 from rfl),
    BitVec.extractLsb'_append_extractLsb'_eq_extractLsb' (show 64 = 0 + (32 + 32) from rfl),
    BitVec.extractLsb'_append_extractLsb'_eq_extractLsb' (show 80 = 0 + (16 + (32 + 32)) from rfl),
    BitVec.extractLsb'_append_extractLsb'_eq_extractLsb' (show 96 = 0 + (16 + (16 + (32 + 32))) from rfl)]
  exact BitVec.extractLsb'_eq_self

theorem encode_decodeDec (w : BitVec 9) : encode (decodeDec w) = ⟨.decIn, w.toNat⟩ := by
  have h := decBeatWord_fields w
  unfold decodeDec
  cases hb : w.getLsbD 8 with
  | false => rw [hb] at h; simp [encode, h]
  | true => rw [hb] at h; simp [encode, h]

theorem encode_decodeWrap (w : BitVec 97) : encode (decodeWrap w) = ⟨.wavCmd, w.toNat⟩ := by
  rw [decodeWrap, encode, wrapCmdWord_fields]

/-- The well-formed beats: an operation port and a word as wide as the port. -/
theorem wellFormed_cases {b : RawBeat} (h : b.WellFormed = true) :
    (∃ w : BitVec 9, b = ⟨.decIn, w.toNat⟩) ∨ (∃ w : BitVec 16, b = ⟨.encIn, w.toNat⟩) ∨
      ∃ w : BitVec 97, b = ⟨.wavCmd, w.toNat⟩ := by
  obtain ⟨p, n⟩ := b
  obtain ⟨hport, hword⟩ := Bool.and_eq_true_iff.mp h
  have hlt : n < 2 ^ p.width := of_decide_eq_true hword
  cases p with
  | decIn => exact .inl ⟨⟨n, hlt⟩, rfl⟩
  | encIn => exact .inr (.inl ⟨⟨n, hlt⟩, rfl⟩)
  | wavCmd => exact .inr (.inr ⟨⟨n, hlt⟩, rfl⟩)
  | decOut | encOut | wavIn | wavOut => cases hport

/-- Settles O2: on each operation port the decoded fields fill the word again. -/
theorem encodeOfDecode : Obligations.EncodeOfDecode := by
  intro b h
  obtain ⟨w, rfl⟩ | ⟨w, rfl⟩ | ⟨w, rfl⟩ := wellFormed_cases h
  · exact ⟨_, decode_decIn w, encode_decodeDec w⟩
  · exact ⟨_, decode_encIn w, rfl⟩
  · exact ⟨_, decode_wavCmd w, encode_decodeWrap w⟩

/-! ### The fields of the code word are slices of the inverted byte (30_encoding.md R72) -/

theorem toNat_not_byte (u : Byte) : (~~~u).toNat = ulawInv u := BitVec.toNat_not

theorem ulawQuant_eq_slice (u : Byte) : ulawQuant u = ((~~~u).extractLsb' 0 4).toNat := by
  rw [BitVec.extractLsb'_toNat, toNat_not_byte]
  exact Nat.and_two_pow_sub_one_eq_mod (ulawInv u) 4

theorem ulawSegment_eq_slice (u : Byte) : ulawSegment u = ((~~~u).extractLsb' 4 3).toNat := by
  rw [BitVec.extractLsb'_toNat, toNat_not_byte, ulawSegment, Nat.shiftRight_and_distrib]
  exact Nat.and_two_pow_sub_one_eq_mod (ulawInv u >>> 4) 3

theorem ulawSign_eq_bit (u : Byte) : ulawSign u = ((~~~u).getLsbD 7).toNat := by
  rw [BitVec.getLsbD, toNat_not_byte, Nat.toNat_testBit, ulawSign, Nat.shiftRight_and_distrib,
    ← Nat.shiftRight_eq_div_pow]
  exact Nat.and_two_pow_sub_one_eq_mod (ulawInv u >>> 7) 1

/-- Settles O5: each field is the slice of `~u`, and the masked form is its definition. -/
theorem codeWordFields : Obligations.CodeWordFields :=
  fun u => ⟨toNat_not_byte u, rfl, ulawQuant_eq_slice u, rfl, ulawSegment_eq_slice u, rfl, ulawSign_eq_bit u⟩

/-! ### The assembled code word is the inverse of its fields, sign first (R73) -/

theorem shiftLeft_or_eq_append (seg : BitVec 3) (q : BitVec 4) : seg.toNat <<< 4 ||| q.toNat = (seg ++ q).toNat :=
  (BitVec.toNat_append seg q).symm

/-- The mask of a sign inverts every bit but the sign of a negative sample (30_encoding.md R79). -/
theorem ulawMask_eq (neg : Bool) : ulawMask neg = ~~~(BitVec.ofBool neg ++ 0#7) := by
  cases neg <;> rfl

theorem not_ulawAssemble (seg : BitVec 3) (q : BitVec 4) (neg : Bool) :
    ~~~(ulawAssemble seg.toNat q.toNat (ulawMask neg)) = BitVec.ofBool neg ++ (seg ++ q) := by
  have hc : (seg ++ q).setWidth 8 = 0#1 ++ (seg ++ q) := BitVec.setWidth_eq_append (by decide)
  rw [ulawAssemble, shiftLeft_or_eq_append, BitVec.ofNat_toNat, hc, ulawMask_eq, BitVec.not_xor_right, BitVec.not_not,
    BitVec.xor_append, BitVec.zero_xor, BitVec.xor_zero]

theorem toNat_ulawAssemble (seg q : Nat) (neg : Bool) :
    (ulawAssemble seg q (ulawMask neg)).toNat = (((seg <<< 4) ||| q) ^^^ (if neg then 0x7F else 0xFF)) % 256 := by
  have hm : ulawMask neg = BitVec.ofNat 8 (if neg then 0x7F else 0xFF) := by cases neg <;> rfl
  rw [ulawAssemble, hm, ← BitVec.ofNat_xor, BitVec.toNat_ofNat]

/-- Settles O6: the inverse of the assembled byte is sign, segment and step side by side, and R72 reads slices of it. -/
theorem codeWordAssembly : Obligations.CodeWordAssembly := by
  intro seg hseg q hq neg
  obtain ⟨seg, rfl⟩ : ∃ x : BitVec 3, x.toNat = seg := ⟨BitVec.ofNatLT seg hseg, rfl⟩
  obtain ⟨q, rfl⟩ : ∃ x : BitVec 4, x.toNat = q := ⟨BitVec.ofNatLT q hq, rfl⟩
  have hinv := not_ulawAssemble seg q neg
  have hbit : (BitVec.ofBool neg ++ (seg ++ q)).getLsbD 7 = neg := by
    simp only [BitVec.getLsbD_append]; cases neg <;> rfl
  refine ⟨?_, toNat_ulawAssemble _ _ neg, ?_, ?_, ?_, ?_⟩
  · rw [shiftLeft_or_eq_append]
    exact Nat.le_of_lt_succ (seg ++ q).isLt
  · rw [← hinv] at hbit
    simpa using hbit
  · rw [ulawSegment_eq_slice, hinv, BitVec.extractLsb'_append_eq_of_add_le (by omega),
      BitVec.extractLsb'_append_eq_left]
  · rw [ulawQuant_eq_slice, hinv, BitVec.extractLsb'_append_eq_of_add_le (by omega),
      BitVec.extractLsb'_append_eq_right]
  · rw [ulawSign_eq_bit, hinv, hbit]
    cases neg <;> rfl

/-! ### The word DEC gives (30_encoding.md R74, 40_decode.md R105) -/

/-- 40_decode.md R100: a decoded sample fits 16 bits. -/
theorem ulawDecode_bounds (u : Byte) : -32124 ≤ ulawDecode u ∧ ulawDecode u ≤ 32124 := by
  have hq : ulawQuant u ≤ 15 := Nat.and_le_right
  have hseg : 2 ^ ulawSegment u ≤ 2 ^ 7 := by
    refine Nat.pow_le_pow_right (by decide) ?_
    rw [ulawSegment_eq_slice]
    exact Nat.le_of_lt_succ (BitVec.isLt _)
  have hlo : 1 ≤ 2 ^ ulawSegment u := Nat.one_le_two_pow
  have hmin : 132 * 1 ≤ (ulawQuant u * 2 ^ 3 + 132) * 2 ^ ulawSegment u := Nat.mul_le_mul (by omega) hlo
  have hmax : (ulawQuant u * 2 ^ 3 + 132) * 2 ^ ulawSegment u ≤ 252 * 2 ^ 7 := Nat.mul_le_mul (by omega) hseg
  simp only [ulawDecode, Nat.shiftLeft_eq, Config.bias, Config.quantShift]
  split <;> omega

/-- R74: with depth select 0 the word is the sample. -/
theorem decWord_false_toInt (u : Byte) : (decWord u false).toInt = ulawDecode u := by
  obtain ⟨hlo, hhi⟩ := ulawDecode_bounds u
  rw [decWord, decWordWith_eq]
  exact BitVec.toInt_ofInt_eq_self (by decide) (by omega) (by omega)

/-- Settles O12: a sign extension keeps the signed value and the low byte, and fills bits 15 to 8 with bit 7. -/
theorem decResultWord : Obligations.DecResultWord := by
  refine ⟨decWord_false_toInt, fun _ => rfl, fun narrow u => ?_⟩
  simp only [decWordWith_eq, if_true, Bool.false_eq_true, if_false, true_and]
  generalize narrow (BitVec.ofInt 16 (ulawDecode u)) = x
  refine ⟨BitVec.toInt_signExtend_of_le (by decide), ?_, fun i hi hi' => ?_⟩
  · rw [BitVec.signExtend_eq_append_of_le (by decide)]
    exact BitVec.extractLsb'_append_eq_right
  · rw [BitVec.getLsbD_signExtend, BitVec.getLsbD_signExtend, if_neg (Nat.not_lt.mpr hi), if_pos (by decide),
      decide_eq_true hi', BitVec.msb_eq_getLsbD_last]
    rfl

/-! ### The three units of a step read one edge's pins (10_state.md R20, R30) -/

theorem exec_pins {i : Instr} {s t : State} (h : exec i s = .next t) : t.pins = s.pins := by
  cases i with
  | dec16 u => rw [exec_dec16] at h; cases h; exact decEdge_pins s _
  | dec8 u => rw [exec_dec8] at h; cases h; exact decEdge_pins s _
  | enc w => rw [exec_enc] at h; cases h; exact encEdge_pins s _
  | wrap le bits channels rate len => rw [exec_wrap] at h; cases h; exact wavEdge_pins s _

theorem unitEdge_pins {o : Option Instr} {f : State → State} (hf : ∀ s, (f s).pins = s.pins) {s t : State}
    (h : unitEdge o f s = .next t) : t.pins = s.pins := by
  cases o with
  | some i => exact exec_pins h
  | none => cases h; exact hf s

theorem andThen_congr {o : Host.Outcome State Fault Refusal} {f g : State → Host.Outcome State Fault Refusal}
    (h : ∀ t, o = .next t → f t = g t) : andThen o f = andThen o g := by
  cases o with
  | next t => exact h t rfl
  | fault r => rfl
  | refused r => rfl

/-- Each unit runs what its port shows at the edge's start: the edges of the units before it do not touch the pins. -/
theorem step_eq_units (s : State) :
    step s =
      andThen (unitEdge (decOffered s.pins) (decEdge none) s) fun a =>
      andThen (unitEdge (encOffered s.pins) (encEdge none) a) fun b =>
      andThen (unitEdge (wavOffered s.pins) (wavEdge none) b) fun c => .next c.advance := by
  refine andThen_congr fun a ha => ?_
  have hpa : a.pins = s.pins := unitEdge_pins (fun t => decEdge_pins t none) ha
  rw [hpa]
  refine andThen_congr fun b hb => ?_
  rw [unitEdge_pins (fun t => encEdge_pins t none) hb, hpa]

/-- A port with `valid` 1 has its operation executed; with `valid` 0 the unit's edge runs with none. -/
theorem unitEdge_ite (valid : Bool) (i : Instr) (f : State → State) (s : State) :
    unitEdge (if valid then some i else none) f s = if valid then exec i s else .next (f s) := by
  cases valid <;> rfl

/-- Settles O53: the word of each port decodes to the operation its unit is offered. -/
theorem stepRunsTheOfferedOperations : Obligations.StepRunsTheOfferedOperations := by
  intro s i j k hi hj hk
  rw [decode_decIn] at hi
  rw [decode_encIn] at hj
  rw [decode_wavCmd] at hk
  cases hi; cases hj; cases hk
  rw [step_eq_units]
  simp only [decOffered, encOffered, wavOffered, unitEdge_ite]

/-! ### A placed word is the one operation on offer (30_encoding.md R75 to R77, log 12) -/

/-- A beat that decodes is the beat of the operation it decodes to. -/
theorem encode_of_decode {b : RawBeat} {i : Instr} (h : decode b = .ok i) : encode i = b := by
  have hwf : b.WellFormed = true := by
    by_contra hbad
    cases hport : b.port.startsOperation with
    | false => rw [decode_notAnOperationPort hport] at h; cases h
    | true =>
      have hwide : 2 ^ b.port.width ≤ b.word := by
        simpa [RawBeat.WellFormed, hport] using hbad
      rw [decode_tooWide hport hwide] at h; cases h
  obtain ⟨j, hj, hb⟩ := encodeOfDecode b hwf
  rw [h] at hj; cases hj; exact hb

theorem offerBeat_decIn (w : BitVec 9) (p : Pins) :
    decOffered (p.offerBeat ⟨.decIn, w.toNat⟩) = some (decodeDec w) ∧
      encOffered (p.offerBeat ⟨.decIn, w.toNat⟩) = none ∧ wavOffered (p.offerBeat ⟨.decIn, w.toNat⟩) = none := by
  refine ⟨?_, rfl, rfl⟩
  simp only [decOffered, Pins.offerBeat, BitVec.ofNat_toNat, BitVec.setWidth_eq, decBeatWord_fields, if_true]

theorem offerBeat_encIn (w : BitVec 16) (p : Pins) :
    decOffered (p.offerBeat ⟨.encIn, w.toNat⟩) = none ∧
      encOffered (p.offerBeat ⟨.encIn, w.toNat⟩) = some (decodeEnc w) ∧
      wavOffered (p.offerBeat ⟨.encIn, w.toNat⟩) = none := by
  refine ⟨rfl, ?_, rfl⟩
  simp only [encOffered, Pins.offerBeat, BitVec.ofNat_toNat, BitVec.setWidth_eq, if_true]

theorem offerBeat_wavCmd (w : BitVec 97) (p : Pins) :
    decOffered (p.offerBeat ⟨.wavCmd, w.toNat⟩) = none ∧ encOffered (p.offerBeat ⟨.wavCmd, w.toNat⟩) = none ∧
      wavOffered (p.offerBeat ⟨.wavCmd, w.toNat⟩) = some (decodeWrap w) := by
  refine ⟨rfl, rfl, ?_⟩
  simp only [wavOffered, Pins.offerBeat, BitVec.ofNat_toNat, BitVec.setWidth_eq, wrapCmdWord_fields, if_true]

theorem offerBeat_rst (b : RawBeat) (p : Pins) : (p.offerBeat b).rst = false := by
  obtain ⟨port, w⟩ := b
  cases port <;> rfl

/-- Only the pins of the next edge are replaced (log 12). -/
@[simp] theorem State.withFetchWord_pins (s : State) (nbits w : Nat) :
    (s.withFetchWord nbits w).pins = s.pins.offerBeat (tableBeat nbits w) := rfl

theorem decode_of_decodeTableWord {nbits w : Nat} {i : Instr} (h : decodeTableWord nbits w = some i) :
    decode (tableBeat nbits w) = .ok i := by
  unfold decodeTableWord at h
  split at h
  · cases h; assumption
  · cases h

/-- Settles O54: the placed word is the beat of the operation it decodes to, so its unit is offered that operation and
the other two units are offered none. -/
theorem fetchedWordRuns : Obligations.FetchedWordRuns := by
  intro s nbits w i h f
  have hpins : f.pins = s.pins.offerBeat (encode i) := by
    rw [encode_of_decode (decode_of_decodeTableWord h)]
    exact State.withFetchWord_pins s nbits w
  refine ⟨hpins ▸ offerBeat_rst _ _, ?_⟩
  have hstep := step_eq_units f
  rw [hpins] at hstep
  cases i with
  | dec16 u => simp only [encode, offerBeat_decIn, decodeDec_decBeatWord] at hstep; exact hstep
  | dec8 u => simp only [encode, offerBeat_decIn, decodeDec_decBeatWord] at hstep; exact hstep
  | enc x => simp only [encode, offerBeat_encIn] at hstep; exact hstep
  | wrap le bits ch rate len => simp only [encode, offerBeat_wavCmd, decodeWrap_wrapCmdWord] at hstep; exact hstep

end Sys2Proof.Machine

namespace Sys2Proof.Machine

/-! ### The decoder's magnitude as a function of the seven bits below the sign (40_decode.md R100) -/

/-- The biased magnitude `t` of R100 for the code `n = 16 E + Q`. -/
def decodedMag (n : Nat) : Nat := (8 * (n % 16) + 132) * 2 ^ (n / 16)

/-- R102 (d): the next code is one step further, or the first of the next segment, whose steps are twice as wide. -/
theorem decodedMag_strictMono : StrictMono decodedMag := by
  refine strictMono_nat_of_lt_succ fun n => ?_
  have hpos : 0 < 2 ^ (n / 16) := Nat.two_pow_pos _
  unfold decodedMag
  by_cases hlast : n % 16 = 15
  · obtain ⟨hq, he⟩ : (n + 1) % 16 = 0 ∧ (n + 1) / 16 = n / 16 + 1 := by omega
    rw [hlast, hq, he, pow_succ]
    omega
  · obtain ⟨hq, he⟩ : (n + 1) % 16 = n % 16 + 1 ∧ (n + 1) / 16 = n / 16 := by omega
    rw [hq, he]
    exact Nat.mul_lt_mul_of_pos_right (by omega) hpos

theorem decodedMag_zero : decodedMag 0 = 132 := rfl

theorem bias_le_decodedMag (n : Nat) : 132 ≤ decodedMag n := decodedMag_strictMono.monotone n.zero_le

theorem ulawInv_le (u : Byte) : ulawInv u ≤ 255 := Nat.sub_le 255 u.toNat

theorem ulawQuant_eq_mod (u : Byte) : ulawQuant u = ulawInv u % 128 % 16 := by
  rw [Nat.mod_mod_of_dvd _ (by decide)]
  exact Nat.and_two_pow_sub_one_eq_mod (ulawInv u) 4

theorem ulawSegment_eq_div (u : Byte) : ulawSegment u = ulawInv u % 128 / 16 := by
  rw [ulawSegment_eq_slice, BitVec.extractLsb'_toNat, toNat_not_byte, Nat.shiftRight_eq_div_pow]
  omega

theorem ulawSign_eq_one_iff (u : Byte) : ulawSign u = 1 ↔ 128 ≤ ulawInv u := by
  rw [ulawSign_eq_bit, BitVec.getLsbD, toNat_not_byte, Nat.toNat_testBit]
  have := ulawInv_le u
  omega

/-- R100 step by step: `t` is the biased magnitude of the seven bits below the sign. -/
theorem shifted_fields_eq_decodedMag (u : Byte) :
    ((ulawQuant u <<< 3) + 0x84) <<< ulawSegment u = decodedMag (ulawInv u % 128) := by
  rw [decodedMag, ← ulawQuant_eq_mod, ← ulawSegment_eq_div, Nat.shiftLeft_eq, Nat.shiftLeft_eq]
  ring

theorem ulawDecode_eq (u : Byte) :
    ulawDecode u = if 128 ≤ ulawInv u then 132 - (decodedMag (ulawInv u % 128) : Int)
      else (decodedMag (ulawInv u % 128) : Int) - 132 := by
  simp only [ulawDecode, ulawSign_eq_one_iff, shifted_fields_eq_decodedMag, Nat.cast_ofNat]

theorem decodedMag_eq_fields (u : Byte) :
    (decodedMag (ulawInv u % 128) : Int) = (8 * (ulawQuant u : Int) + 132) * 2 ^ ulawSegment u := by
  rw [ulawQuant_eq_mod, ulawSegment_eq_div, decodedMag]
  push_cast
  rfl

/-- R102 (f): the magnitude of a sample, by its fields. -/
theorem abs_ulawDecode (u : Byte) :
    |ulawDecode u| = (8 * (ulawQuant u : Int) + 132) * 2 ^ ulawSegment u - 132 := by
  have hbias := bias_le_decodedMag (ulawInv u % 128)
  rw [← decodedMag_eq_fields, ulawDecode_eq]
  split
  · rw [abs_of_nonpos (by omega), neg_sub]
  · rw [abs_of_nonneg (by omega)]

/-- R102 (b): the sign field alone differs. -/
theorem ulawDecode_xor_sign (u : Byte) : ulawDecode (u ^^^ 0x80) = -ulawDecode u := by
  have hbit : (u ^^^ 0x80).toNat % 128 = u.toNat % 128 ∧ ((u ^^^ 0x80).toNat < 128 ↔ 128 ≤ u.toNat) := by
    revert u; decide
  have hlt := (u ^^^ 0x80).isLt
  have hinv : ulawInv (u ^^^ 0x80) % 128 = ulawInv u % 128 := by unfold ulawInv; omega
  have hsign : 128 ≤ ulawInv (u ^^^ 0x80) ↔ ¬ 128 ≤ ulawInv u := by unfold ulawInv; omega
  rw [ulawDecode_eq, ulawDecode_eq, hinv]
  by_cases h : 128 ≤ ulawInv u
  · rw [if_pos h, if_neg (by tauto), neg_sub]
  · rw [if_neg h, if_pos (hsign.mpr h), neg_sub]

/-- R102 (c): the magnitude is the bias only at code 0 of either sign. -/
theorem ulawDecode_eq_zero_iff (u : Byte) : ulawDecode u = 0 ↔ u = 0xFF ∨ u = 0x7F := by
  have hbias : ulawDecode u = 0 ↔ decodedMag (ulawInv u % 128) = decodedMag 0 := by
    rw [ulawDecode_eq, decodedMag_zero]
    split <;> omega
  rw [hbias, decodedMag_strictMono.injective.eq_iff, ← BitVec.toNat_inj, ← BitVec.toNat_inj]
  unfold ulawInv
  have := u.isLt
  simp only [BitVec.reduceToNat]
  omega

/-- R102 (d) over 0x80..0xFF: a larger byte inverts to a smaller code. -/
theorem ulawDecode_strictAnti_pos {u w : Byte} (hu : 0x80 ≤ u.toNat) (huw : u.toNat < w.toNat) :
    ulawDecode w < ulawDecode u := by
  have hw := w.isLt
  have hlt : decodedMag (ulawInv w % 128) < decodedMag (ulawInv u % 128) :=
    decodedMag_strictMono (by unfold ulawInv; omega)
  rw [ulawDecode_eq, ulawDecode_eq, if_neg (by unfold ulawInv; omega), if_neg (by unfold ulawInv; omega)]
  omega

/-- R102 (d) over 0x00..0x7F. -/
theorem ulawDecode_strictMono_neg {u w : Byte} (huw : u.toNat < w.toNat) (hw : w.toNat ≤ 0x7F) :
    ulawDecode u < ulawDecode w := by
  have hlt : decodedMag (ulawInv w % 128) < decodedMag (ulawInv u % 128) :=
    decodedMag_strictMono (by unfold ulawInv; omega)
  rw [ulawDecode_eq, ulawDecode_eq, if_pos (by unfold ulawInv; omega), if_pos (by unfold ulawInv; omega)]
  omega

/-- R102 (e): next to each other in one segment, the step fields differ by one. -/
theorem abs_ulawDecode_sub_of_adjacent {u w : Byte} (huw : w.toNat = u.toNat + 1)
    (hseg : ulawSegment u = ulawSegment w) (hsign : ulawSign u = ulawSign w) :
    |ulawDecode w - ulawDecode u| = 8 * 2 ^ ulawSegment u := by
  have hquant : ulawQuant u = ulawQuant w + 1 := by
    rw [ulawSegment_eq_div, ulawSegment_eq_div] at hseg
    rw [ulawQuant_eq_mod, ulawQuant_eq_mod]
    have hw := w.isLt
    unfold ulawInv at hseg ⊢
    omega
  have hneg : 128 ≤ ulawInv w ↔ 128 ≤ ulawInv u := by
    rw [← ulawSign_eq_one_iff, ← ulawSign_eq_one_iff, hsign]
  have hstep : (decodedMag (ulawInv u % 128) : Int) - decodedMag (ulawInv w % 128) = 8 * 2 ^ ulawSegment u := by
    rw [decodedMag_eq_fields, decodedMag_eq_fields, hquant, ← hseg]
    push_cast
    ring
  simp only [ulawDecode_eq, hneg]
  split
  · rw [sub_sub_sub_cancel_left, hstep, abs_of_nonneg (by positivity)]
  · rw [sub_sub_sub_cancel_right, abs_sub_comm, hstep, abs_of_nonneg (by positivity)]

/-- Settles O8: each clause of R102 is one of the laws above; the ends of a segment are its magnitudes at Q = 0 and 15. -/
theorem ulawDecodeProperties : Obligations.UlawDecodeProperties := by
  refine ⟨⟨by decide, by decide, ulawDecode_bounds⟩, ulawDecode_xor_sign, ulawDecode_eq_zero_iff,
    fun _ _ => ulawDecode_strictAnti_pos, fun _ _ => ulawDecode_strictMono_neg,
    fun _ _ => abs_ulawDecode_sub_of_adjacent, fun u hq => ?_, fun u hq => ?_⟩
  · rw [abs_ulawDecode, hq]; rfl
  · rw [abs_ulawDecode, hq]; rfl

/-- Settles O7: the definition is R100's, and `t` runs from code 0 to code 127. -/
theorem ulawDecodeFormula : Obligations.UlawDecodeFormula := by
  intro u
  obtain ⟨hlo, hhi⟩ := ulawDecode_bounds u
  have hmag := shifted_fields_eq_decodedMag u
  have hmax : decodedMag (ulawInv u % 128) ≤ decodedMag 127 := decodedMag_strictMono.monotone (by omega)
  refine ⟨rfl, hlo, hhi, hmag ▸ bias_le_decodedMag _, hmag ▸ hmax, ?_⟩
  simp only [Nat.shiftLeft_eq]
  congr 1
  ring

/-! ### The table of the decoder (40_decode.md R103, R108) -/

/-- Settles O9: the table read is the word of DEC16. -/
theorem tableMatchesFormula : Obligations.TableMatchesFormula :=
  ⟨by rw [decLut, List.length_map, List.length_range], decWord_false_toInt⟩

/-- Settles O10: the 256 entries of the generated table, evaluated. -/
theorem printedDecodeTable : Obligations.PrintedDecodeTable := by
  unfold Obligations.PrintedDecodeTable
  decide +kernel

/-! ### The candidate narrowings (40_decode.md R104) -/

theorem trunc8_bounds (y : Int) : -128 ≤ trunc8 y ∧ trunc8 y ≤ 127 :=
  ⟨BitVec.le_toInt _, Int.le_of_lt_add_one (BitVec.toInt_lt)⟩

theorem trunc8_modEq (y : Int) : (trunc8 y - y) % 256 = 0 := by
  rw [trunc8, BitVec.toInt_ofInt]
  exact Int.emod_eq_zero_of_dvd (Int.dvd_bmod_sub_self)

/-- Settles O11: a signed byte is in range, a clamp has three cases, and `hi8` is floor division. -/
theorem narrowingCandidates : Obligations.NarrowingCandidates := by
  intro y
  obtain ⟨hlo, hhi⟩ := trunc8_bounds y
  refine ⟨⟨hlo, hhi, trunc8_modEq y⟩, ?_, ?_⟩
  · unfold sat8
    split
    · omega
    · split <;> omega
  · unfold hi8
    omega

/-! ### Where a beat is taken on DEC in (43_buffer_forms_and_handshake.md R173, R174) -/

theorem decS2Free_iff {r : DecRegs} {ready : Bool} : decS2Free r ready = true ↔ r.v2 = false ∨ ready = true := by
  simp [decS2Free]

theorem decS1Free_iff {r : DecRegs} {ready : Bool} :
    decS1Free r ready = true ↔ r.v1 = false ∨ r.v2 = false ∨ ready = true := by
  simp [decS1Free, decS2Free]

/-- R171: with stage 1 free a beat on offer is taken, and a result on offer leaves when the host is ready. -/
theorem decStreamsNext_free {r : DecRegs} {ready : Bool} (h : decS1Free r ready = true) (o : Option DecBeat)
    (x : DecStreams) :
    decStreamsNext false o ready r x =
      { taken := x.taken ++ o.toList
        given := if r.v2 = true ∧ ready = true then x.given ++ [⟨r.y2, r.d2⟩] else x.given } := by
  cases ready <;> cases hv2 : r.v2 <;> simp [decStreamsNext, decOutput, h, hv2]

/-- A beat on offer at an edge with stage 1 free: both stages by R174, both streams by R171. -/
theorem decEdge_taken {s : State} (b : DecBeat) (hrst : s.pins.rst = false)
    (hfree : s.dec.v1 = false ∨ s.dec.v2 = false ∨ s.pins.dec.outReady = true) :
    decEdge (some b) s =
      { s with
        dec :=
          { v1 := true
            a1 := b.data
            d1 := b.depth8
            v2 := if s.dec.v2 = false ∨ s.pins.dec.outReady = true then s.dec.v1 else s.dec.v2
            y2 := if (s.dec.v2 = false ∨ s.pins.dec.outReady = true) ∧ s.dec.v1 = true
              then decWord s.dec.a1 s.dec.d1 else s.dec.y2
            d2 := if (s.dec.v2 = false ∨ s.pins.dec.outReady = true) ∧ s.dec.v1 = true then s.dec.d1 else s.dec.d2 }
        decStreams :=
          { taken := s.decStreams.taken ++ [b]
            given := if s.dec.v2 = true ∧ s.pins.dec.outReady = true
              then s.decStreams.given ++ [⟨s.dec.y2, s.dec.d2⟩] else s.decStreams.given } } := by
  have hfree' := decS1Free_iff.mpr hfree
  simp only [decEdge, hrst, decNext_free hfree', decStreamsNext_free hfree', Bool.and_eq_true, decS2Free_iff]
  rfl

/-- Settles O13: the beat taken has depth select 0. -/
theorem dec16Completes : Obligations.Dec16Completes :=
  fun _ u hrst hfree => congrArg _ (decEdge_taken ⟨false, u⟩ hrst hfree)

/-- Settles O14: the beat taken has depth select 1. -/
theorem dec8Completes : Obligations.Dec8Completes :=
  fun _ u hrst hfree => congrArg _ (decEdge_taken ⟨true, u⟩ hrst hfree)

/-! ### Where its result leaves (R174) -/

/-- With the host taking results, what stage 1 holds is on offer on DEC out after the edge. -/
theorem decOutput_decNext_ready {r : DecRegs} (o : Option DecBeat) (hv1 : r.v1 = true) :
    decOutput (decNext false o true r) = some (decAnswer ⟨r.d1, r.a1⟩) := by
  have hfree : decS2Free r true = true := decS2Free_iff.mpr (.inr rfl)
  rw [decNext_free (decS1Free_iff.mpr (.inr (.inr rfl)))]
  simp [decOutput, decAnswer, hfree, hv1]

/-- A beat taken is answered at the next edge that takes results, whatever else the pins show there. -/
theorem decEdge_taken_answered {s : State} (b : DecBeat) (hrst : s.pins.rst = false)
    (hfree : s.dec.v1 = false ∨ s.dec.v2 = false ∨ s.pins.dec.outReady = true) {p : Pins} (rest : List Pins)
    (hp : p.rst = false) (hready : p.dec.outReady = true) :
    ∃ t, step ((decEdge (some b) s).setInputs (p :: rest)) = .next t ∧ decOutput t.dec = some (decAnswer b) := by
  have hpins : ((decEdge (some b) s).setInputs (p :: rest)).pins = p := rfl
  refine ⟨_, step_eq_edge _, ?_⟩
  rw [edge_dec, State.setInputs_dec, hpins, hp, hready, decEdge_taken b hrst hfree]
  exact decOutput_decNext_ready _ rfl

/-- R106: the result of DEC16. -/
theorem decAnswer_dec16 (u : Byte) : decAnswer ⟨false, u⟩ = ⟨BitVec.ofInt 16 (ulawDecode u), false⟩ := by
  rw [decAnswer, decWord, decWordWith_eq]; rfl

/-- R107: the result of DEC8, by the open narrowing (R104, log 5). -/
theorem decAnswer_dec8 (u : Byte) :
    decAnswer ⟨true, u⟩ = ⟨(Config.narrow8 (BitVec.ofInt 16 (ulawDecode u))).signExtend 16, true⟩ := by
  rw [decAnswer, decWord, decWordWith_eq]; rfl

/-- Settles O15: DEC16 and DEC8 answer their unit's edge with the beat taken, and its answer is the result word. -/
theorem decResultsLeave : Obligations.DecResultsLeave := by
  intro s u hrst hfree
  refine ⟨⟨_, exec_dec16 u s, fun p rest hp hready => ?_⟩, ⟨_, exec_dec8 u s, fun p rest hp hready => ?_⟩⟩
  · rw [← decAnswer_dec16]
    exact decEdge_taken_answered ⟨false, u⟩ hrst hfree rest hp hready
  · rw [← decAnswer_dec8]
    exact decEdge_taken_answered ⟨true, u⟩ hrst hfree rest hp hready

end Sys2Proof.Machine

namespace Sys2Proof.Machine

/-! ### The biased magnitude (41_encode.md R120, R121) -/

/-- Settles O22: the exact magnitude of a sample of the port is below 2^16. -/
theorem biasedMagnitudeRange : Obligations.BiasedMagnitudeRange := by
  refine ⟨fun s hlo hhi => ?_, rfl, rfl, rfl, rfl⟩
  obtain ⟨hmin, hmag⟩ := biasedMag_eq s
  have hmax : biasedMag s ≤ 32900 := by split at hmag <;> omega
  exact ⟨hmin, hmax, by rw [BitVec.toNat_ofNat, Nat.mod_eq_of_lt (by omega)]⟩

/-! ### The segment search (R122, R123)

The scan passes threshold `i` exactly when the magnitude has reached `2^(i+8)`; each property of the search is read off
this order. -/

theorem segScan_le (m : Nat) : segScan m segEnd ≤ 8 := by
  have := segScan_cases m
  omega

theorem lt_segScan_iff {m i : Nat} : i < segScan m segEnd ↔ i < 8 ∧ 2 ^ (i + 8) ≤ m := by
  have hscan := segScan_cases m
  by_cases hi : i < 8
  · interval_cases i <;> omega
  · omega

theorem segScan_mono {m m' : Nat} (h : m ≤ m') : segScan m segEnd ≤ segScan m' segEnd :=
  le_of_forall_lt fun i hi => by
    obtain ⟨hi, hm⟩ := lt_segScan_iff.mp hi
    exact lt_segScan_iff.mpr ⟨hi, hm.trans h⟩

/-- R123: the segment is the position of the leading one, from bit 7 on, and at most 8. -/
theorem segScan_eq_log2 {m : Nat} (hm : m ≠ 0) : segScan m segEnd = min 8 (m.log2 - 7) :=
  eq_of_forall_lt_iff fun i => by
    rw [lt_segScan_iff, ← Nat.le_log2 hm]
    omega

/-- R120 step 2: the least index whose threshold the magnitude does not exceed. -/
theorem segScan_eq_of_least {m seg : Nat} (hseg : seg < 8) (hle : m ≤ 2 ^ (seg + 8) - 1)
    (hleast : ∀ i < seg, 2 ^ (i + 8) - 1 < m) : segScan m segEnd = seg := by
  refine le_antisymm (not_lt.mp fun h => ?_) (le_of_forall_lt fun i hi => lt_segScan_iff.mpr ⟨by omega, ?_⟩)
  · have := (lt_segScan_iff.mp h).2
    have := Nat.two_pow_pos (seg + 8)
    omega
  · have := hleast i hi
    omega

/-- R120 step 2: no threshold reached. -/
theorem segScan_eq_eight_iff {m : Nat} : segScan m segEnd = 8 ↔ 32768 ≤ m := by
  have hiff := lt_segScan_iff (m := m) (i := 7)
  have hle := segScan_le m
  omega

/-- R123, a tie: the magnitude that equals a threshold is in the lower segment. -/
theorem segScan_threshold {i : Nat} (hi : i < 8) : segScan (2 ^ (i + 8) - 1) segEnd = i :=
  segScan_eq_of_least hi le_rfl fun j hj => by
    exact Nat.sub_lt_sub_right Nat.one_le_two_pow (Nat.pow_lt_pow_right (by decide) (by omega))

/-- R123: one above a threshold is in the next segment. -/
theorem segScan_two_pow {i : Nat} (hi : i < 8) : segScan (2 ^ (i + 8)) segEnd = i + 1 := by
  rw [segScan_eq_log2 (Nat.two_pow_pos _).ne', Nat.log2_two_pow]
  omega

/-- R123: in segment `E` the leading one is bit `E + 7`, so the five bits from bit `E + 3` up are 16..31. -/
theorem segScan_eq_iff {m E : Nat} (hm : 128 ≤ m) (hE : E < 8) :
    segScan m segEnd = E ↔ 16 ≤ m >>> (E + 3) ∧ m >>> (E + 3) < 32 := by
  have hpos : 0 < 2 ^ (E + 3) := Nat.two_pow_pos _
  have hlog := Nat.log2_eq_iff (n := m) (k := E + 7) (by omega)
  have h7 : 7 ≤ m.log2 := (Nat.le_log2 (by omega)).mpr hm
  rw [segScan_eq_log2 (by omega), Nat.shiftRight_eq_div_pow, Nat.le_div_iff_mul_le hpos, Nat.div_lt_iff_lt_mul hpos]
  rw [show 2 ^ (E + 7) = 16 * 2 ^ (E + 3) by ring, show 2 ^ (E + 7 + 1) = 32 * 2 ^ (E + 3) by ring] at hlog
  omega

/-! ### The comparators (R122, R123) -/

theorem segEnd_toNat : segEnd.map BitVec.toNat = (List.range 8).map fun i => 2 ^ (i + 8) - 1 := by decide

theorem segCompare_eq_thresholds (mag : Half) :
    segCompare mag = (List.range 8).map fun i => decide (mag.toNat ≤ 2 ^ (i + 8) - 1) := by
  have h := congrArg (List.map fun e => decide (mag.toNat ≤ e)) segEnd_toNat
  rw [List.map_map, List.map_map] at h
  exact h

/-- `k` zeros below `8 - k` ones. -/
def thermometer (k : Nat) : List Bool := (List.range 8).map fun i => decide (k ≤ i)

theorem thermometer_getD {k i : Nat} (hi : i < 8) : (thermometer k).getD i false = decide (k ≤ i) := by
  simp [thermometer, hi]

/-- The eight comparators are the thermometer code of the scan's answer. -/
theorem segCompare_eq_thermometer (mag : Half) : segCompare mag = thermometer (segScan mag.toNat segEnd) := by
  rw [segCompare_eq_thresholds]
  refine List.map_congr_left fun i hi => decide_eq_decide.mpr ?_
  have hpos := Nat.two_pow_pos (i + 8)
  rw [← not_lt (a := i), lt_segScan_iff]
  have := List.mem_range.mp hi
  omega

theorem thermometer_findIdx : ∀ k ≤ 8, (thermometer k).findIdx id = k := by decide

theorem thermometer_count : ∀ k ≤ 8, (thermometer k).count true = 8 - k := by decide

/-- R123: the tree gives the linear scan's answer. -/
theorem segTree_eq_segScan (mag : Half) : segTree mag = segScan mag.toNat segEnd := by
  rw [segTree, segCompare_eq_thermometer, thermometer_findIdx _ (segScan_le _)]

/-- Settles O23: the comparators are the thermometer code of the scan, whose order is `lt_segScan_iff`. -/
theorem comparatorTree : Obligations.ComparatorTree := by
  refine ⟨segEnd_toNat, fun mag => ?_⟩
  simp only [segTree_eq_segScan]
  refine ⟨segCompare_eq_thresholds mag, fun i j hij hj hi => ?thermometer, trivial, ?count, fun hlo hhi => ?log,
    segScan_eq_eight_iff.mpr, fun i hi h => h ▸ segScan_threshold hi, fun i hi h => h ▸ segScan_two_pow hi,
    fun mag' => segScan_mono⟩
  case thermometer =>
    rw [segCompare_eq_thermometer, thermometer_getD (by omega), decide_eq_true_iff] at hi ⊢
    omega
  case count =>
    rw [segCompare_eq_thermometer, thermometer_count _ (segScan_le _)]
    have := segScan_le mag.toNat
    omega
  case log =>
    have hlt : segScan mag.toNat segEnd < 8 :=
      lt_of_le_of_ne (segScan_le _) fun h => by have := segScan_eq_eight_iff.mp h; omega
    obtain ⟨h16, h32⟩ := (segScan_eq_iff (by omega) hlt).mp rfl
    refine ⟨?_, ?_⟩
    · have := segScan_eq_log2 (m := mag.toNat) (by omega)
      omega
    · rw [Nat.and_two_pow_sub_one_eq_mod _ 4]
      omega

/-! ### `ulaw_encode` (R120) -/

theorem biasedMag_eq_toNat (s : Int) : biasedMag s = (if s < 0 then 0x84 - s else s + 0x84).toNat := by
  unfold biasedMag
  split <;> rfl

theorem ulawMask_sign (s : Int) : ulawMask (decide (s < 0)) = if s < 0 then 0x7F else 0xFF := by
  simp [ulawMask]

theorem ulawEncode_of_clamp {s : Int} (h : segScan (biasedMag s) segEnd = 8) :
    ulawEncode s = 0x7F ^^^ ulawMask (decide (s < 0)) :=
  if_pos h.ge

theorem ulawEncode_of_segment {s : Int} {seg : Nat} (h : segScan (biasedMag s) segEnd = seg) (hseg : seg < 8) :
    ulawEncode s = ulawAssemble seg ((biasedMag s >>> (seg + 3)) &&& 0x0F) (ulawMask (decide (s < 0))) := by
  subst h
  exact if_neg (not_le.mpr hseg)

/-- Settles O24: the scan stops at the least threshold, or passes all eight. -/
theorem encodeFormula : Obligations.EncodeFormula := by
  intro s
  simp only [← biasedMag_eq_toNat, ← ulawMask_sign]
  refine ⟨(biasedMag_eq s).1, fun hall => ?_, fun seg hseg hle hleast => ?_⟩
  · exact ulawEncode_of_clamp (segScan_eq_eight_iff.mpr (hall 7 (by decide)))
  · exact ulawEncode_of_segment (segScan_eq_of_least hseg hle hleast) hseg

/-! ### The code of a magnitude (41_encode.md R120, R126)

The codes `n = 16 E + Q` of both signs cut the magnitudes from 128 on into intervals, in order. -/

/-- R126: `lo`, the least magnitude of segment `n / 16`, step `n % 16`. -/
def intervalLo (n : Nat) : Nat := (16 + n % 16) * 2 ^ (n / 16 + 3)

/-- R126: `hi + 1`, where the next interval begins, in the same segment or the next. -/
theorem intervalLo_succ (n : Nat) : intervalLo (n + 1) = (17 + n % 16) * 2 ^ (n / 16 + 3) := by
  unfold intervalLo
  by_cases hlast : n % 16 = 15
  · obtain ⟨hq, he⟩ : (n + 1) % 16 = 0 ∧ (n + 1) / 16 = n / 16 + 1 := by omega
    rw [hlast, hq, he]
    ring
  · obtain ⟨hq, he⟩ : (n + 1) % 16 = n % 16 + 1 ∧ (n + 1) / 16 = n / 16 := by omega
    rw [hq, he]
    ring

theorem intervalLo_strictMono : StrictMono intervalLo :=
  strictMono_nat_of_lt_succ fun n => by
    rw [intervalLo_succ]
    exact Nat.mul_lt_mul_of_pos_right (by omega) (Nat.two_pow_pos _)

/-- R126: the decoder's magnitude is the midpoint of its code's interval. -/
theorem decodedMag_eq_midpoint (n : Nat) :
    decodedMag n = intervalLo n + 2 ^ (n / 16 + 2) ∧ intervalLo (n + 1) = decodedMag n + 2 ^ (n / 16 + 2) := by
  rw [intervalLo_succ, decodedMag, intervalLo]
  constructor <;> ring

/-- R120 steps 2 to 4 without the sign: the code of a biased magnitude, 127 past the last threshold. -/
def magCode (m : Nat) : Nat :=
  if 8 ≤ segScan m segEnd then 127 else 16 * segScan m segEnd + m >>> (segScan m segEnd + 3) % 16

theorem magCode_of_clamp {m : Nat} (hm : 32768 ≤ m) : magCode m = 127 :=
  if_pos (segScan_eq_eight_iff.mpr hm).ge

/-- The magnitude `m` has segment `E` and step `Q` (R120 steps 2 and 3). -/
abbrev HasFields (m E Q : Nat) : Prop := segScan m segEnd = E ∧ (m >>> (E + 3)) &&& 0x0F = Q

/-- R126: segment `E` and step `Q` are exactly the magnitudes of the interval of code `16 E + Q`. -/
theorem hasFields_iff {m E Q : Nat} (hm : 128 ≤ m) (hE : E < 8) (hQ : Q < 16) :
    HasFields m E Q ↔ (16 + Q) * 2 ^ (E + 3) ≤ m ∧ m < (17 + Q) * 2 ^ (E + 3) := by
  have hpos : 0 < 2 ^ (E + 3) := Nat.two_pow_pos _
  rw [HasFields, ← Nat.le_div_iff_mul_le hpos, ← Nat.div_lt_iff_lt_mul hpos, ← Nat.shiftRight_eq_div_pow,
    segScan_eq_iff hm hE, Nat.and_two_pow_sub_one_eq_mod _ 4]
  omega

theorem magCode_of_fields {m E Q : Nat} (hE : E < 8) (h : HasFields m E Q) :
    magCode m = 16 * E + Q := by
  obtain ⟨rfl, rfl⟩ := h
  rw [magCode, if_neg (not_le.mpr hE), Nat.and_two_pow_sub_one_eq_mod _ 4]

/-- Below the clamp a magnitude lies in the interval of its code. -/
theorem magCode_interval {m : Nat} (hlo : 128 ≤ m) (hhi : m < 32768) :
    intervalLo (magCode m) ≤ m ∧ m < intervalLo (magCode m + 1) := by
  have hseg : segScan m segEnd < 8 :=
    lt_of_le_of_ne (segScan_le m) fun h => by have := segScan_eq_eight_iff.mp h; omega
  have hq : (m >>> (segScan m segEnd + 3)) &&& 0x0F < 16 := Nat.lt_of_le_of_lt Nat.and_le_right (by decide)
  have hcode := magCode_of_fields hseg ⟨rfl, rfl⟩
  obtain ⟨he, hr⟩ : magCode m / 16 = segScan m segEnd ∧
      magCode m % 16 = (m >>> (segScan m segEnd + 3)) &&& 0x0F := by omega
  rw [intervalLo_succ, intervalLo, he, hr]
  exact (hasFields_iff hlo hseg hq).mp ⟨rfl, rfl⟩

theorem magCode_lt (m : Nat) : magCode m < 128 := by
  have hseg := segScan_le m
  unfold magCode
  split <;> omega

/-- A code's interval begins at the least magnitude that reaches it. -/
theorem le_magCode_iff {m n : Nat} (hm : 128 ≤ m) (hn : n < 128) : n ≤ magCode m ↔ intervalLo n ≤ m := by
  by_cases hclamp : 32768 ≤ m
  · have hlast : intervalLo n ≤ intervalLo 127 := intervalLo_strictMono.monotone (by omega)
    have h127 : intervalLo 127 = 31744 := rfl
    rw [magCode_of_clamp hclamp]
    omega
  · obtain ⟨hlo, hhi⟩ := magCode_interval hm (not_le.mp hclamp)
    constructor <;> intro h
    · exact (intervalLo_strictMono.monotone h).trans hlo
    · exact Nat.lt_succ_iff.mp (intervalLo_strictMono.lt_iff_lt.mp (h.trans_lt hhi))

theorem magCode_mono {m m' : Nat} (hm : 128 ≤ m) (h : m ≤ m') : magCode m ≤ magCode m' :=
  (le_magCode_iff (hm.trans h) (magCode_lt m)).mpr (((le_magCode_iff hm (magCode_lt m)).mp le_rfl).trans h)

/-- R127, on magnitudes. -/
theorem magCode_decodedMag {n : Nat} (hn : n < 128) : magCode (decodedMag n) = n := by
  have hm : 128 ≤ decodedMag n := le_trans (by decide) (bias_le_decodedMag n)
  obtain ⟨hmid, hnext⟩ := decodedMag_eq_midpoint n
  have hpos : 0 < 2 ^ (n / 16 + 2) := Nat.two_pow_pos _
  refine le_antisymm (not_lt.mp fun h => ?_) ((le_magCode_iff hm hn).mpr (by omega))
  have : intervalLo (n + 1) ≤ decodedMag n := (le_magCode_iff hm (lt_of_le_of_lt h (magCode_lt _))).mp h
  omega

/-! ### The byte of a code (30_encoding.md R72, R73) -/

theorem ulawInv_ulawAssemble {E Q : Nat} (hE : E < 8) (hQ : Q < 16) (neg : Bool) :
    ulawInv (ulawAssemble E Q (ulawMask neg)) = (if neg then 128 else 0) + (16 * E + Q) := by
  obtain ⟨E, rfl⟩ : ∃ x : BitVec 3, x.toNat = E := ⟨BitVec.ofNatLT E hE, rfl⟩
  obtain ⟨Q, rfl⟩ : ∃ x : BitVec 4, x.toNat = Q := ⟨BitVec.ofNatLT Q hQ, rfl⟩
  have hcode : (E ++ Q).toNat = 16 * E.toNat + Q.toNat := by
    rw [BitVec.toNat_append, ← Nat.shiftLeft_add_eq_or_of_lt hQ, Nat.shiftLeft_eq, mul_comm]
  rw [← toNat_not_byte, not_ulawAssemble, BitVec.toNat_append, ← Nat.shiftLeft_add_eq_or_of_lt (E ++ Q).isLt, hcode]
  cases neg <;> rfl

theorem ulawDecode_ulawAssemble {E Q : Nat} (hE : E < 8) (hQ : Q < 16) (neg : Bool) :
    ulawDecode (ulawAssemble E Q (ulawMask neg)) =
      if neg then 132 - (decodedMag (16 * E + Q) : Int) else (decodedMag (16 * E + Q) : Int) - 132 := by
  have hcode : ((if neg then 128 else 0) + (16 * E + Q)) % 128 = 16 * E + Q := by split <;> omega
  have hsign : 128 ≤ (if neg then 128 else 0) + (16 * E + Q) ↔ neg = true := by
    split
    · exact iff_of_true (Nat.le_add_right _ _) ‹_›
    · exact iff_of_false (by omega) ‹_›
  rw [ulawDecode_eq, ulawInv_ulawAssemble hE hQ, hcode]
  simp only [hsign]

/-- R120 as one assembly: the clamp is the assembly of segment 7, step 15 (R124). -/
theorem ulawEncode_eq_assemble (s : Int) :
    ulawEncode s =
      ulawAssemble (magCode (biasedMag s) / 16) (magCode (biasedMag s) % 16) (ulawMask (decide (s < 0))) := by
  obtain hclamp | hseg := (segScan_le (biasedMag s)).eq_or_lt
  · rw [ulawEncode_of_clamp hclamp, magCode_of_clamp (segScan_eq_eight_iff.mp hclamp)]
    rfl
  · have hq : (biasedMag s >>> (segScan (biasedMag s) segEnd + 3)) &&& 0x0F < 16 :=
      Nat.lt_of_le_of_lt Nat.and_le_right (by decide)
    rw [ulawEncode_of_segment rfl hseg, magCode_of_fields hseg ⟨rfl, rfl⟩]
    congr 1 <;> omega

theorem ulawInv_ulawEncode (s : Int) :
    ulawInv (ulawEncode s) = (if s < 0 then 128 else 0) + magCode (biasedMag s) := by
  have := magCode_lt (biasedMag s)
  rw [ulawEncode_eq_assemble, ulawInv_ulawAssemble (by omega) (by omega), Nat.div_add_mod]
  simp only [decide_eq_true_eq]

/-- A decode after an encode: the midpoint of the code's interval, with the sample's sign. -/
theorem ulawDecode_ulawEncode (s : Int) :
    ulawDecode (ulawEncode s) =
      if s < 0 then 132 - (decodedMag (magCode (biasedMag s)) : Int)
      else (decodedMag (magCode (biasedMag s)) : Int) - 132 := by
  have := magCode_lt (biasedMag s)
  rw [ulawEncode_eq_assemble, ulawDecode_ulawAssemble (by omega) (by omega), Nat.div_add_mod]
  simp only [decide_eq_true_eq]

theorem abs_ulawDecode_ulawEncode_sub (s : Int) :
    |ulawDecode (ulawEncode s) - s| = |(decodedMag (magCode (biasedMag s)) : Int) - biasedMag s| := by
  have hmag := (biasedMag_eq s).2
  rw [ulawDecode_ulawEncode]
  split at hmag
  · rw [if_pos ‹_›, hmag, ← abs_neg]
    congr 1
    ring
  · rw [if_neg ‹_›, hmag]
    congr 1
    ring

/-- R126: below the clamp the error is at most half an interval. -/
theorem abs_decodedMag_magCode_sub {m : Nat} (hlo : 128 ≤ m) (hhi : m < 32768) :
    |(decodedMag (magCode m) : Int) - m| ≤ (2 ^ (magCode m / 16 + 2) : Nat) := by
  obtain ⟨h1, h2⟩ := magCode_interval hlo hhi
  obtain ⟨hmid, hnext⟩ := decodedMag_eq_midpoint (magCode m)
  rw [abs_le]
  omega

/-! ### The clamp (41_encode.md R124) -/

/-- R120 step 4, by the segment and the step. -/
theorem ulawEncode_of_fields {s : Int} {E Q : Nat} (hE : E < 8) (h : HasFields (biasedMag s) E Q) :
    ulawEncode s = ulawAssemble E Q (ulawMask (decide (s < 0))) := by
  obtain ⟨hseg, rfl⟩ := h
  exact ulawEncode_of_segment hseg hE

theorem ulawEncode_eq_ite_of_clamp {s : Int} (h : 32768 ≤ biasedMag s) :
    ulawEncode s = if s < 0 then 0x00 else 0x80 := by
  rw [ulawEncode_of_clamp (segScan_eq_eight_iff.mpr h), ulawMask_sign]
  split <;> rfl

/-- The top step, which the clamp continues. -/
theorem ulawEncode_topStep {s : Int} (hlo : 31744 ≤ biasedMag s) (hhi : biasedMag s < 32768) :
    segScan (biasedMag s) segEnd = 7 ∧ (biasedMag s >>> 10) &&& 0x0F = 15 ∧
      ulawEncode s = if s < 0 then 0x00 else 0x80 := by
  obtain ⟨hseg, hq⟩ : HasFields (biasedMag s) 7 15 :=
    (hasFields_iff (by omega) (by decide) (by decide)).mpr ⟨hlo, hhi⟩
  refine ⟨hseg, hq, ?_⟩
  rw [ulawEncode_of_fields (by decide) ⟨hseg, hq⟩, ulawMask_sign]
  split <;> rfl

/-- R124: the error is largest under the clamp, whose magnitudes all decode to 32256, biased. -/
theorem abs_ulawDecode_ulawEncode_sub_le {s : Int} (hlo : -32768 ≤ s) (hhi : s ≤ 32767) :
    |ulawDecode (ulawEncode s) - s| ≤ 644 := by
  obtain ⟨hmin, hmax, -⟩ := biasedMagnitudeRange.1 s hlo hhi
  rw [abs_ulawDecode_ulawEncode_sub]
  by_cases hclamp : 32768 ≤ biasedMag s
  · have h127 : decodedMag 127 = 32256 := rfl
    rw [magCode_of_clamp hclamp, h127, abs_le]
    omega
  · have herr := abs_decodedMag_magCode_sub (m := biasedMag s) (by omega) (by omega)
    have hcode := magCode_lt (biasedMag s)
    have hstep : 2 ^ (magCode (biasedMag s) / 16 + 2) ≤ 2 ^ 9 := Nat.pow_le_pow_right (by decide) (by omega)
    omega

/-- Settles O25: the clamp and the top step give the code 127, and the clamp reaches 644 past its midpoint. -/
theorem encodeClamp : Obligations.EncodeClamp := by
  refine ⟨fun s h => ⟨segScan_eq_eight_iff.mpr h, ulawEncode_eq_ite_of_clamp h⟩, fun s hlo hhi => ?port,
    fun s hlo hhi => ?pos, fun s hlo hhi => ?neg, rfl, rfl, fun s => abs_ulawDecode_ulawEncode_sub_le, rfl, rfl⟩
  all_goals have hmag := (biasedMag_eq s).2
  case port => split at hmag <;> omega
  case pos =>
    rw [if_neg (by omega)] at hmag
    have h := ulawEncode_topStep (s := s) (by omega) (by omega)
    rwa [if_neg (by omega)] at h
  case neg =>
    rw [if_pos (by omega)] at hmag
    have h := ulawEncode_topStep (s := s) (by omega) (by omega)
    rwa [if_pos (by omega)] at h

/-! ### The codes' intervals (R126) -/

/-- R126's interval, on integers. -/
theorem hasFields_biasedMag_iff (s : Int) {E Q : Nat} (hE : E < 8) (hQ : Q < 16) :
    HasFields (biasedMag s) E Q ↔
      (16 + (Q : Int)) * 2 ^ (E + 3) ≤ biasedMag s ∧ (biasedMag s : Int) ≤ (17 + (Q : Int)) * 2 ^ (E + 3) - 1 := by
  have hmin := (biasedMag_eq s).1
  rw [hasFields_iff (by omega) hE hQ, Int.le_sub_one_iff]
  norm_cast

theorem ulawAssemble_pos (E Q : Nat) :
    ulawAssemble E Q (ulawMask false) = ~~~(BitVec.ofNat 8 ((E <<< 4) ||| Q)) :=
  BitVec.xor_allOnes

/-- The midpoint by its fields. -/
theorem decodedMag_of_fields {E Q : Nat} (hQ : Q < 16) :
    (decodedMag (16 * E + Q) : Int) = (2 * (Q : Int) + 33) * 2 ^ (E + 2) := by
  obtain ⟨he, hr⟩ : (16 * E + Q) / 16 = E ∧ (16 * E + Q) % 16 = Q := by omega
  rw [decodedMag, he, hr]
  push_cast
  ring

/-- R126: in an interval of segment `E` the error is at most half its length. -/
theorem abs_ulawDecode_ulawEncode_sub_of_fields {s : Int} {E Q : Nat} (hE : E < 8) (hQ : Q < 16)
    (h : HasFields (biasedMag s) E Q) :
    |ulawDecode (ulawEncode s) - s| ≤ 2 ^ (E + 2) := by
  have hmin := (biasedMag_eq s).1
  have hclamp : biasedMag s < 32768 := not_le.mp fun hm => by
    have := segScan_eq_eight_iff.mpr hm
    omega
  have herr := abs_decodedMag_magCode_sub (m := biasedMag s) (by omega) hclamp
  have he : magCode (biasedMag s) / 16 = E := by rw [magCode_of_fields hE h]; omega
  rw [he] at herr
  rw [abs_ulawDecode_ulawEncode_sub]
  exact_mod_cast herr

theorem magCode_biasedMag_eq_zero_iff (s : Int) : magCode (biasedMag s) = 0 ↔ -3 ≤ s ∧ s ≤ 3 := by
  obtain ⟨hmin, hmag⟩ := biasedMag_eq s
  have h1 := le_magCode_iff (m := biasedMag s) (n := 1) (by omega) (by decide)
  have hlo : intervalLo 1 = 136 := rfl
  split at hmag <;> omega

/-- R126: the zero code of the non-negative samples. -/
theorem ulawEncode_eq_posZero_iff (s : Int) : ulawEncode s = 0xFF ↔ 0 ≤ s ∧ s ≤ 3 := by
  have hinv := ulawInv_ulawEncode s
  have hzero := magCode_biasedMag_eq_zero_iff s
  have hlt := (ulawEncode s).isLt
  rw [← BitVec.toNat_inj]
  simp only [BitVec.reduceToNat]
  unfold ulawInv at hinv
  split at hinv <;> omega

/-- R126: the zero code of the negative samples. -/
theorem ulawEncode_eq_negZero_iff (s : Int) : ulawEncode s = 0x7F ↔ -3 ≤ s ∧ s ≤ -1 := by
  have hinv := ulawInv_ulawEncode s
  have hzero := magCode_biasedMag_eq_zero_iff s
  have hcode := magCode_lt (biasedMag s)
  have hlt := (ulawEncode s).isLt
  rw [← BitVec.toNat_inj]
  simp only [BitVec.reduceToNat]
  unfold ulawInv at hinv
  split at hinv <;> omega

/-- R126: on each side of zero the code follows the magnitude, and the decoded value has the sample's sign. -/
theorem ulawDecode_ulawEncode_mono {s s' : Int} (h : s ≤ s') :
    ulawDecode (ulawEncode s) ≤ ulawDecode (ulawEncode s') := by
  obtain ⟨hmin, hmag⟩ := biasedMag_eq s
  obtain ⟨hmin', hmag'⟩ := biasedMag_eq s'
  have hbias := bias_le_decodedMag (magCode (biasedMag s))
  have hbias' := bias_le_decodedMag (magCode (biasedMag s'))
  rw [ulawDecode_ulawEncode, ulawDecode_ulawEncode]
  by_cases hs : s < 0
  · by_cases hs' : s' < 0
    · have := decodedMag_strictMono.monotone
        (magCode_mono (m := biasedMag s') (m' := biasedMag s) (by omega) (by omega))
      omega
    · omega
  · have := decodedMag_strictMono.monotone
      (magCode_mono (m := biasedMag s) (m' := biasedMag s') (by omega) (by omega))
    omega

/-- R126: away from zero, a sample and its negative have one magnitude. -/
theorem ulawDecode_ulawEncode_neg {s : Int} (hs : s ≠ 0) :
    ulawDecode (ulawEncode (-s)) = -ulawDecode (ulawEncode s) := by
  obtain ⟨-, hmag⟩ := biasedMag_eq s
  obtain ⟨-, hmag'⟩ := biasedMag_eq (-s)
  have hsame : biasedMag (-s) = biasedMag s := by omega
  rw [ulawDecode_ulawEncode, ulawDecode_ulawEncode, hsame]
  omega

/-- Settles O26: each clause of R126 is one of the laws above. -/
theorem codeIntervals : Obligations.CodeIntervals := by
  refine ⟨fun E hE Q hQ s => ?_, ulawEncode_eq_posZero_iff, ulawEncode_eq_negZero_iff,
    fun _ _ => ulawDecode_ulawEncode_mono, fun s hpos _ => ulawDecode_ulawEncode_neg ?_⟩
  · intro lo hi
    obtain ⟨-, hmag⟩ := biasedMag_eq s
    have hiff := hasFields_biasedMag_iff s hE hQ
    refine ⟨hiff, fun hlo hhi => ?pos, fun hlo hhi => ?neg, ?midpoint, by ring, fun hlo hhi =>
      abs_ulawDecode_ulawEncode_sub_of_fields hE hQ (hiff.mpr ⟨hlo, hhi⟩)⟩
    case pos =>
      have hs : ¬ s < 0 := by omega
      rw [if_neg hs] at hmag
      rw [ulawEncode_of_fields hE (hiff.mpr ⟨by omega, by omega⟩), decide_eq_false hs, ulawAssemble_pos]
    case neg =>
      have hs : s < 0 := by omega
      rw [if_pos hs] at hmag
      rw [ulawEncode_of_fields hE (hiff.mpr ⟨by omega, by omega⟩), decide_eq_true hs]
      rfl
    case midpoint =>
      rw [← ulawAssemble_pos, ulawDecode_ulawAssemble hE hQ, if_neg (by decide), decodedMag_of_fields hQ]
  · rintro rfl
    exact hpos rfl

/-! ### Encode after decode (R127) -/

theorem biasedMag_ulawDecode (u : Byte) : biasedMag (ulawDecode u) = decodedMag (ulawInv u % 128) := by
  obtain ⟨-, hmag⟩ := biasedMag_eq (ulawDecode u)
  have hbias := bias_le_decodedMag (ulawInv u % 128)
  have hdec := ulawDecode_eq u
  split at hdec <;> split at hmag <;> omega

theorem ulawInv_injective : Function.Injective ulawInv := fun u w h => by
  have := u.isLt
  have := w.isLt
  unfold ulawInv at h
  exact BitVec.eq_of_toNat_eq (by omega)

/-- 0x7F is the one byte with the sign bit whose value is not negative. -/
theorem ulawDecode_neg_iff {u : Byte} (hu : u ≠ 0x7F) : ulawDecode u < 0 ↔ 128 ≤ ulawInv u := by
  have hbias := bias_le_decodedMag (ulawInv u % 128)
  have hdec := ulawDecode_eq u
  constructor
  · intro hneg
    split at hdec <;> omega
  · intro hsign
    refine lt_of_le_of_ne (by rw [if_pos hsign] at hdec; omega) fun hzero => ?_
    obtain rfl | h7F := (ulawDecode_eq_zero_iff u).mp hzero
    · exact absurd hsign (by decide)
    · exact hu h7F

/-- R127: the code of a decoded value is the byte's own, and so is its sign but for 0x7F. -/
theorem ulawEncode_ulawDecode (u : Byte) : ulawEncode (ulawDecode u) = if u = 0x7F then 0xFF else u := by
  split
  · next h => subst h; rfl
  · next h =>
    apply ulawInv_injective
    rw [ulawInv_ulawEncode, biasedMag_ulawDecode, magCode_decodedMag (Nat.mod_lt _ (by decide))]
    simp only [ulawDecode_neg_iff h]
    have := ulawInv_le u
    split <;> omega

/-- Settles O27: 0x7F and 0xFF are the two codes of zero. -/
theorem codecRoundTrip : Obligations.CodecRoundTrip := by
  refine fun u => ⟨ulawEncode_ulawDecode u, ?_⟩
  rw [ulawEncode_ulawDecode]
  split
  · next h => subst h; rfl
  · rfl

/-! ### Where a sample is taken on ENC in (43_buffer_forms_and_handshake.md R173, R175) -/

theorem encS2Free_iff {r : EncRegs} {ready : Bool} : encS2Free r ready = true ↔ r.v2 = false ∨ ready = true := by
  simp [encS2Free]

theorem encS1Free_iff {r : EncRegs} {ready : Bool} :
    encS1Free r ready = true ↔ r.v1 = false ∨ r.v2 = false ∨ ready = true := by
  simp [encS1Free, encS2Free]

/-- R171: with stage 1 free a sample on offer is taken, and a byte on offer leaves when the host is ready. -/
theorem encStreamsNext_free {r : EncRegs} {ready : Bool} (h : encS1Free r ready = true) (o : Option Half)
    (x : EncStreams) :
    encStreamsNext false o ready r x =
      { taken := x.taken ++ o.toList
        given := if r.v2 = true ∧ ready = true then x.given ++ [r.b2] else x.given } := by
  cases ready <;> cases hv2 : r.v2 <;> simp [encStreamsNext, encOutput, h, hv2]

/-- R175: the sign stage 1 takes is the sample's top bit. -/
theorem decide_toInt_neg (w : Half) : decide (w.toInt < 0) = w.getLsbD 15 :=
  BitVec.msb_eq_toInt.symm.trans (BitVec.msb_eq_getLsbD_last w)

/-- R175: the magnitude stage 1 takes is `low_16` of the integer. -/
theorem ofNat_biasedMag (s : Int) :
    BitVec.ofNat 16 (biasedMag s) = BitVec.ofInt 16 (if s < 0 then 0x84 - s else s + 0x84) := by
  rw [← BitVec.ofInt_natCast, (biasedMag_eq s).2]

/-- A sample on offer at an edge with stage 1 free: both stages by R175, both streams by R171. -/
theorem encEdge_taken {s : State} (w : Half) (hrst : s.pins.rst = false)
    (hfree : s.enc.v1 = false ∨ s.enc.v2 = false ∨ s.pins.enc.outReady = true) :
    encEdge (some w) s =
      { s with
        enc :=
          { v1 := true
            neg1 := w.getLsbD 15
            mag1 := BitVec.ofInt 16 (if w.toInt < 0 then 0x84 - w.toInt else w.toInt + 0x84)
            v2 := if s.enc.v2 = false ∨ s.pins.enc.outReady = true then s.enc.v1 else s.enc.v2
            b2 := if (s.enc.v2 = false ∨ s.pins.enc.outReady = true) ∧ s.enc.v1 = true
              then encCode s.enc.mag1 s.enc.neg1 else s.enc.b2 }
        encStreams :=
          { taken := s.encStreams.taken ++ [w]
            given := if s.enc.v2 = true ∧ s.pins.enc.outReady = true
              then s.encStreams.given ++ [s.enc.b2] else s.encStreams.given } } := by
  have hfree' := encS1Free_iff.mpr hfree
  rw [← decide_toInt_neg, ← ofNat_biasedMag]
  simp only [encEdge, hrst, encNext_free hfree', encStreamsNext_free hfree', Bool.and_eq_true, encS2Free_iff]
  rfl

/-- Settles O28: ENC answers its unit's edge with the sample taken. -/
theorem encCompletes : Obligations.EncCompletes :=
  fun _ w hrst hfree => congrArg _ (encEdge_taken w hrst hfree)

/-! ### Where its byte leaves (R175) -/

/-- R175: `enc_code` on what stage 1 holds of a sample is `ulaw_encode` of the sample. -/
theorem encCode_eq_ulawEncode (w : Half) :
    encCode (BitVec.ofNat 16 (biasedMag w.toInt)) (decide (w.toInt < 0)) = ulawEncode w.toInt := by
  obtain ⟨-, -, hfits⟩ := biasedMagnitudeRange.1 w.toInt (BitVec.le_toInt w) (Int.le_of_lt_add_one BitVec.toInt_lt)
  rw [encCode, segTree_eq_segScan, hfits]
  rfl

/-- With the host taking results, the code of what stage 1 holds is on offer on ENC out after the edge. -/
theorem encOutput_encNext_ready {r : EncRegs} (o : Option Half) (hv1 : r.v1 = true) :
    encOutput (encNext false o true r) = some (encCode r.mag1 r.neg1) := by
  have hfree : encS2Free r true = true := encS2Free_iff.mpr (.inr rfl)
  rw [encNext_free (encS1Free_iff.mpr (.inr (.inr rfl)))]
  simp [encOutput, hfree, hv1]

/-- Settles O29: the sample is in stage 1 after its edge, and its code on offer after the next. -/
theorem encResultLeaves : Obligations.EncResultLeaves := by
  intro s w hrst hfree
  refine ⟨_, exec_enc w s, fun p rest hp hready => ⟨_, step_eq_edge _, ?_⟩⟩
  have hpins : ((encEdge (some w) s).setInputs (p :: rest)).pins = p := rfl
  rw [edge_enc, State.setInputs_enc, hpins, hp, hready, encEdge_taken w hrst hfree, encOutput_encNext_ready _ rfl,
    ← ofNat_biasedMag, ← decide_toInt_neg, encCode_eq_ulawEncode]

end Sys2Proof.Machine

namespace Sys2Proof.Machine

/-! ### What WAV's streams record at an edge, state by state (42_wav_wrap.md R151 to R154, R171) -/

section
variable {r : WavRegs} {c : Option WrapCmd} {inValid ready : Bool} {d : Byte} {x : WavStreams}

theorem wavStreamsNext_idle (h : r.state = .idle) :
    wavStreamsNext false c inValid d ready r x = { x with cmds := x.cmds ++ c.toList } := by
  simp [wavStreamsNext, wavCmdReady, wavInReady, wavOutput, h]

theorem wavStreamsNext_header (h : r.state = .header) :
    wavStreamsNext false c inValid d ready r x =
      { x with
        out := if ready then x.out ++ [⟨wavHdrNow r, decide (r.idx.toNat = 43 ∧ r.rem.toNat = 0)⟩] else x.out } := by
  simp [wavStreamsNext, wavCmdReady, wavInReady, wavOutput, h, ← BitVec.toNat_inj]

theorem wavStreamsNext_payload (h : r.state = .payload) :
    wavStreamsNext false c inValid d ready r x =
      if inValid && ready then
        { x with payload := x.payload ++ [d], out := x.out ++ [⟨d, decide (r.rem.toNat = 1)⟩] }
      else x := by
  cases inValid <;> cases ready <;>
    simp [wavStreamsNext, wavCmdReady, wavInReady, wavOutput, h, ← BitVec.toNat_inj]

theorem wavStreamsNext_fault (h : r.state = .fault) : wavStreamsNext false c inValid d ready r x = x := by
  simp [wavStreamsNext, wavCmdReady, wavInReady, wavOutput, h]

/-- The command port is looked at in IDLE only (R151). -/
theorem wavStreamsNext_busy (h : r.state ≠ .idle) :
    wavStreamsNext false c inValid d ready r x = wavStreamsNext false none inValid d ready r x := by
  simp [wavStreamsNext, wavCmdReady, h]

/-! ### WAV's registers after an edge, with the numbers of R151 to R153 -/

theorem wavIdleEdge_some (c : WrapCmd) :
    wavIdleEdge (some c) r =
      { state := if c.len.toNat > Config.lenMax then .fault else .header
        idx := 0, rem := c.len, rate := c.rate, ch := c.channels, bits := c.bits, le := c.le } := by
  unfold wavIdleEdge wavLatch WavRegs.enterFault
  dsimp only
  split <;> rfl

theorem wavHeaderEdge_ready (h : r.state = .header) :
    wavHeaderEdge true r =
      { r with
        state := if r.idx.toNat < 43 then .header else if r.rem.toNat = 0 then .idle else .payload
        idx := if r.idx.toNat < 43 then r.idx + 1 else r.idx } := by
  have hrem : r.rem = 0 ↔ r.rem.toNat = 0 := BitVec.toNat_inj.symm
  unfold wavHeaderEdge
  simp only [if_true, hrem]
  split
  · rw [← h]
  · split <;> rfl

theorem wavPayloadEdge_passes (h : r.state = .payload) :
    wavPayloadEdge true true r =
      { r with
        state := if r.rem.toNat = 1 then .idle else .payload
        rem := if r.rem.toNat = 1 then r.rem else r.rem - 1 } := by
  have hrem : r.rem = 1 ↔ r.rem.toNat = 1 := BitVec.toNat_inj.symm
  unfold wavPayloadEdge
  simp only [Bool.and_self, if_true, hrem]
  split
  · rfl
  · rw [← h]

end

/-! ### WAV's edge in each state of the sequencer -/

/-- R151: out of IDLE the command port is not looked at. -/
theorem wavEdge_busy {s : State} (hrst : s.pins.rst = false) (h : s.wav.state ≠ .idle) (c : Option WrapCmd) :
    wavEdge c s = wavEdge none s := by
  unfold wavEdge; rw [hrst, wavNext_busy h, wavStreamsNext_busy h]

section
variable {s : State} (hrst : s.pins.rst = false)
include hrst

/-- R171 in HEADER: the byte on offer leaves when the host is ready. -/
theorem fires_wavOut_header (h : s.wav.state = .header) : s.fires .wavOut = s.pins.wav.outReady := by
  simp [State.fires, State.validOf, State.readyOf, wavOutput, hrst, h]

/-- R171 in PAYLOAD: the byte the host offers leaves when the host is ready. -/
theorem fires_wavOut_payload (h : s.wav.state = .payload) :
    s.fires .wavOut = (s.pins.wav.inValid && s.pins.wav.outReady) := by
  cases hv : s.pins.wav.inValid <;> simp [State.fires, State.validOf, State.readyOf, wavOutput, hrst, h, hv]

/-- R151: in IDLE a command on offer is taken, and nothing else happens. -/
theorem edge_wavStreams_idle (h : s.wav.state = .idle) :
    (edge s).wavStreams = { s.wavStreams with cmds := s.wavStreams.cmds ++ s.pins.wrapCmd.toList } := by
  rw [edge_wavStreams, hrst, wavStreamsNext_idle h]

theorem edge_wav_idle (h : s.wav.state = .idle) : (edge s).wav = wavIdleEdge s.pins.wrapCmd s.wav := by
  rw [edge_wav, hrst, wavNext_idle h]

/-- R152 to R154: out of IDLE an edge at which no byte leaves changes neither a register nor a stream of WAV. -/
theorem edge_wav_waits (hbusy : s.wav.state ≠ .idle) (hfire : s.fires .wavOut = false) :
    (edge s).wav = s.wav ∧ (edge s).wavStreams = s.wavStreams := by
  rw [edge_wav, edge_wavStreams, hrst]
  cases h : s.wav.state with
  | idle => exact absurd h hbusy
  | header =>
    rw [fires_wavOut_header hrst h] at hfire
    rw [wavNext_header h, wavStreamsNext_header h, hfire]
    exact ⟨rfl, rfl⟩
  | payload =>
    rw [fires_wavOut_payload hrst h] at hfire
    rw [wavNext_payload h, wavStreamsNext_payload h, wavPayloadEdge, hfire]
    exact ⟨rfl, rfl⟩
  | fault => rw [wavNext_fault h, wavStreamsNext_fault h]; exact ⟨rfl, rfl⟩

/-- R152: a header byte leaves. -/
theorem edge_wav_header (h : s.wav.state = .header) (hready : s.pins.wav.outReady = true) :
    (edge s).wav =
        { s.wav with
          state := if s.wav.idx.toNat < 43 then .header else if s.wav.rem.toNat = 0 then .idle else .payload
          idx := if s.wav.idx.toNat < 43 then s.wav.idx + 1 else s.wav.idx } ∧
      (edge s).wavStreams =
        { s.wavStreams with
          out := s.wavStreams.out ++
            [⟨wavHdrNow s.wav, decide (s.wav.idx.toNat = 43 ∧ s.wav.rem.toNat = 0)⟩] } := by
  rw [edge_wav, edge_wavStreams, hrst, hready, wavNext_header h, wavHeaderEdge_ready h, wavStreamsNext_header h]
  exact ⟨rfl, rfl⟩

/-- R153: a payload byte passes. -/
theorem edge_wav_payload (h : s.wav.state = .payload) (hvalid : s.pins.wav.inValid = true)
    (hready : s.pins.wav.outReady = true) :
    (edge s).wav =
        { s.wav with
          state := if s.wav.rem.toNat = 1 then .idle else .payload
          rem := if s.wav.rem.toNat = 1 then s.wav.rem else s.wav.rem - 1 } ∧
      (edge s).wavStreams =
        { s.wavStreams with
          payload := s.wavStreams.payload ++ [s.pins.wav.inData]
          out := s.wavStreams.out ++ [⟨s.pins.wav.inData, decide (s.wav.rem.toNat = 1)⟩] } := by
  rw [edge_wav, edge_wavStreams, hrst, hvalid, hready, wavNext_payload h, wavPayloadEdge_passes h,
    wavStreamsNext_payload h]
  exact ⟨rfl, rfl⟩

end

/-! ### The output stream agrees with `wav_wrap` (42_wav_wrap.md R160), state by state -/

section
variable {s : State}

theorem wavAgrees_idle (h : s.wav.state = .idle) :
    s.WavAgrees ↔ Delivered s.wavStreams.cmds s.wavStreams.payload s.wavStreams.out := by
  simp only [State.WavAgrees, h]

theorem wavAgrees_header (h : s.wav.state = .header) :
    s.WavAgrees ↔ ∃ cmds out, s.wavStreams.cmds = cmds ++ [s.wav.latched] ∧ Delivered cmds s.wavStreams.payload out ∧
      s.wav.rem.toNat ≤ Config.lenMax ∧ s.wav.idx.toNat ≤ 43 ∧
      s.wavStreams.out = out ++ unmarked (s.wav.latched.header.take s.wav.idx.toNat) := by
  simp only [State.WavAgrees, h]

theorem wavAgrees_payload (h : s.wav.state = .payload) :
    s.WavAgrees ↔ ∃ cmds c before now out, s.wavStreams.cmds = cmds ++ [c] ∧ s.wavStreams.payload = before ++ now ∧
      Delivered cmds before out ∧ c.len.toNat ≤ Config.lenMax ∧ 1 ≤ s.wav.rem.toNat ∧
      now.length + s.wav.rem.toNat = c.len.toNat ∧ s.wavStreams.out = out ++ unmarked (c.header ++ now) := by
  simp only [State.WavAgrees, h]

theorem wavAgrees_fault (h : s.wav.state = .fault) :
    s.WavAgrees ↔ ∃ cmds, s.wavStreams.cmds = cmds ++ [s.wav.latched] ∧
      Delivered cmds s.wavStreams.payload s.wavStreams.out ∧ s.wav.rem.toNat > Config.lenMax := by
  simp only [State.WavAgrees, h]

/-- The agreement speaks of WAV's registers and streams alone. -/
theorem wavAgrees_congr {t : State} (hregs : t.wav = s.wav) (hstreams : t.wavStreams = s.wavStreams) :
    t.WavAgrees ↔ s.WavAgrees := by
  unfold State.WavAgrees; rw [hregs, hstreams]

/-- R155: the bytes of a frame so far and its final byte make the frame of its command and payload. -/
theorem frameOf_of_concat {c : WrapCmd} {p bs : List Byte} {b : Byte} (h : c.header ++ p = bs ++ [b])
    (hp : p.length = c.len.toNat) (hl : c.len.toNat ≤ Config.lenMax) : frameOf c p = unmarked bs ++ [⟨b, true⟩] := by
  rw [frameOf_eq c p hp hl, h, markLast_concat]

/-- R210: a reset edge leaves nothing taken and nothing given. -/
theorem edge_wavAgrees_of_rst (hrst : s.pins.rst = true) : (edge s).WavAgrees := by
  rw [wavAgrees_idle (by rw [edge_wav, hrst]; rfl), edge_wavStreams, hrst]
  exact Delivered.nil

variable (hrst : s.pins.rst = false)
include hrst

/-- R151: a command taken in IDLE starts a frame none of whose bytes has left, or the fault. -/
theorem edge_wavAgrees_of_idle (hs : s.WavAgrees) (h : s.wav.state = .idle) : (edge s).WavAgrees := by
  have hreg := edge_wav_idle hrst h
  have hstr := edge_wavStreams_idle hrst h
  have hdel := (wavAgrees_idle h).mp hs
  cases hc : s.pins.wrapCmd with
  | none =>
    rw [hc] at hreg hstr
    refine (wavAgrees_congr hreg ?_).mpr hs
    rw [hstr, Option.toList_none, List.append_nil]
  | some c =>
    rw [hc, wavIdleEdge_some] at hreg
    rw [hc] at hstr
    by_cases hl : c.len.toNat > Config.lenMax
    · rw [if_pos hl] at hreg
      rw [wavAgrees_fault (by rw [hreg]), hreg, hstr]
      exact ⟨_, rfl, hdel, hl⟩
    · rw [if_neg hl] at hreg
      rw [wavAgrees_header (by rw [hreg]), hreg, hstr]
      exact ⟨_, _, rfl, hdel, Nat.le_of_not_gt hl, Nat.zero_le _, (List.append_nil _).symm⟩

/-- R152: HEADER gives one more header byte; the last of them ends the frame of an empty payload. -/
theorem edge_wavAgrees_of_header (hs : s.WavAgrees) (h : s.wav.state = .header) (hready : s.pins.wav.outReady = true) :
    (edge s).WavAgrees := by
  obtain ⟨hreg, hstr⟩ := edge_wav_header hrst h hready
  obtain ⟨cmds, out, hcmds, hdel, hl, hidx, hout⟩ := (wavAgrees_header h).mp hs
  have hnext : s.wav.latched.header.take (s.wav.idx.toNat + 1) =
      s.wav.latched.header.take s.wav.idx.toNat ++ [wavHdrNow s.wav] := WrapCmd.header_take_succ _ _ (by omega)
  by_cases hlt : s.wav.idx.toNat < 43
  · have hsucc : (s.wav.idx + 1).toNat = s.wav.idx.toNat + 1 := BitVec.toNat_add_of_lt (by simp; omega)
    rw [if_pos hlt, if_pos hlt] at hreg
    rw [wavAgrees_header (by rw [hreg]), hreg, hstr]
    refine ⟨cmds, out, hcmds, hdel, hl, by rw [hsucc]; omega, ?_⟩
    have hlast : ¬ (s.wav.idx.toNat = 43 ∧ s.wav.rem.toNat = 0) := by omega
    rw [hsucc]
    simp only [hout, hlast, decide_false, List.append_assoc]
    exact congrArg _ ((congrArg unmarked hnext).trans (unmarked_append _ _)).symm
  · have h43 : s.wav.idx.toNat = 43 := by omega
    have hheader : s.wav.latched.header = s.wav.latched.header.take 43 ++ [wavHdrNow s.wav] := by
      rw [h43] at hnext
      exact (List.take_of_length_le (by simp)).symm.trans hnext
    rw [if_neg hlt, if_neg hlt] at hreg
    by_cases hrem : s.wav.rem.toNat = 0
    · rw [if_pos hrem] at hreg
      have hframe := frameOf_of_concat (p := []) ((List.append_nil _).trans hheader) hrem.symm hl
      rw [wavAgrees_idle (by rw [hreg]), hstr]
      simp only [hcmds, hout, h43, hrem, and_self, decide_true, List.append_assoc, ← hframe]
      simpa using hdel.concat s.wav.latched [] hrem.symm hl
    · rw [if_neg hrem] at hreg
      rw [wavAgrees_payload (by rw [hreg]), hreg, hstr]
      refine ⟨cmds, s.wav.latched, s.wavStreams.payload, [], out, hcmds, (List.append_nil _).symm, hdel, hl,
        Nat.one_le_iff_ne_zero.mpr hrem, Nat.zero_add _, ?_⟩
      simp only [hout, h43, hrem, and_false, decide_false, List.append_assoc, List.append_nil]
      exact congrArg _ ((congrArg unmarked hheader).trans (unmarked_append _ _)).symm

/-- R153: PAYLOAD gives the byte it takes; the last one of its command ends the frame. -/
theorem edge_wavAgrees_of_payload (hs : s.WavAgrees) (h : s.wav.state = .payload) (hvalid : s.pins.wav.inValid = true)
    (hready : s.pins.wav.outReady = true) : (edge s).WavAgrees := by
  obtain ⟨hreg, hstr⟩ := edge_wav_payload hrst h hvalid hready
  obtain ⟨cmds, c, before, now, out, hcmds, hpay, hdel, hl, hrem1, hlen, hout⟩ := (wavAgrees_payload h).mp hs
  by_cases hrem : s.wav.rem.toNat = 1
  · rw [if_pos hrem, if_pos hrem] at hreg
    have hnow : (now ++ [s.pins.wav.inData]).length = c.len.toNat := by simp; omega
    have hframe := frameOf_of_concat (List.append_assoc c.header now [s.pins.wav.inData]).symm hnow hl
    rw [wavAgrees_idle (by rw [hreg]), hstr]
    simp only [hcmds, hpay, hout, hrem, decide_true, List.append_assoc, ← hframe]
    exact hdel.concat c _ hnow hl
  · have hpred : (s.wav.rem - 1).toNat = s.wav.rem.toNat - 1 := BitVec.toNat_sub_of_le hrem1
    rw [if_neg hrem, if_neg hrem] at hreg
    rw [wavAgrees_payload (by rw [hreg]), hreg, hstr]
    refine ⟨cmds, c, before, now ++ [s.pins.wav.inData], out, hcmds, ?_, hdel, hl, ?_, ?_, ?_⟩
    · rw [hpay, List.append_assoc]
    · simp only [hpred]; omega
    · simp only [hpred, List.length_append, List.length_singleton]; omega
    · simp only [hout, hrem, decide_false, ← List.append_assoc, unmarked_append _ [s.pins.wav.inData]]
      rfl

end

/-- Every edge keeps the agreement: in each state a byte leaves or nothing changes. -/
theorem edge_wavAgrees {s : State} (hs : s.WavAgrees) : (edge s).WavAgrees := by
  cases hrst : s.pins.rst with
  | true => exact edge_wavAgrees_of_rst hrst
  | false =>
    by_cases hidle : s.wav.state = .idle
    · exact edge_wavAgrees_of_idle hrst hs hidle
    cases hfire : s.fires .wavOut with
    | false =>
      obtain ⟨hregs, hstreams⟩ := edge_wav_waits hrst hidle hfire
      exact (wavAgrees_congr hregs hstreams).mpr hs
    | true =>
      cases h : s.wav.state with
      | idle => exact absurd h hidle
      | header =>
        rw [fires_wavOut_header hrst h] at hfire
        exact edge_wavAgrees_of_header hrst hs h hfire
      | payload =>
        rw [fires_wavOut_payload hrst h, Bool.and_eq_true] at hfire
        exact edge_wavAgrees_of_payload hrst hs h hfire.1 hfire.2
      | fault => simp [State.fires, State.validOf, wavOutput, h] at hfire

/-- Settles O47: a step answers `edge`, which keeps the agreement. -/
theorem wavStreamAgreementKept : Obligations.WavStreamAgreementKept := by
  intro s t hs hstep
  obtain rfl := step_next_iff.mp hstep
  exact edge_wavAgrees hs

/-! ### WRAP, and the edge of each state (42_wav_wrap.md R150 to R154) -/

/-- Settles O35: WRAP answers the edge of IDLE with its command on offer, and a legal length starts a frame. -/
theorem wrapCompletes : Obligations.WrapCompletes := by
  intro s le bits channels rate len hrst hidle hlen
  rw [exec_wrap, wavEdge, hrst, wavNext_idle hidle, wavIdleEdge_some, wavStreamsNext_idle hidle]
  exact congrArg _ (State.eq_of_fields rfl rfl (by simp [Config.lenMax, hlen]) rfl rfl rfl rfl rfl)

/-- Settles O37: out of IDLE the command port is not looked at. -/
theorem wrapWaitsWhileBusy : Obligations.WrapWaitsWhileBusy := by
  intro s le bits channels rate len hrst hbusy
  refine ⟨?_, ?_, decide_eq_false hbusy⟩
  · rw [exec_wrap, wavEdge_busy hrst hbusy]
  · simp [wavStreamsNext, hrst]

/-- Settles O38: IDLE does what `wavIdleEdge` does with the command on offer. -/
theorem wavIdleEdgeRule : Obligations.WavIdleEdge := by
  refine ⟨fun s hrst hidle => ⟨edge s, step_eq_edge s, fun hcmd => ?_, fun hcmd => ?_⟩,
    fun s c hrst hbusy => wavEdge_busy hrst hbusy c⟩
  · rw [edge_wav_idle hrst hidle, Pins.wrapCmd, hcmd]
    rfl
  · rw [edge_wav_idle hrst hidle, Pins.wrapCmd, hcmd, if_pos rfl, wavIdleEdge_some]

/-- Settles O39: HEADER waits for the host, and gives a byte when it is ready. -/
theorem wavHeaderEdgeRule : Obligations.WavHeaderEdge := by
  intro s hrst h
  refine ⟨edge s, step_eq_edge s, fun hready => ?_, fun hready => ?_⟩
  · obtain ⟨hregs, hstreams⟩ := edge_wav_waits hrst (by simp [h]) ((fires_wavOut_header hrst h).trans hready)
    exact ⟨hregs, congrArg _ hstreams⟩
  · obtain ⟨hregs, hstreams⟩ := edge_wav_header hrst h hready
    exact ⟨congrArg _ hstreams, hregs⟩

/-- Settles O41: FAULT offers no byte, and only a reset edge leaves it. -/
theorem wavFaultEdge : Obligations.WavFaultEdge := by
  intro s h
  refine ⟨edge s, step_eq_edge s, fun hrst => ?_, fun hrst => ?_⟩
  · have hfire : s.fires .wavOut = false := by simp [State.fires, State.validOf, wavOutput, h]
    obtain ⟨hregs, hstreams⟩ := edge_wav_waits hrst (by simp [h]) hfire
    exact ⟨hregs, hstreams, decide_eq_true (by rw [hregs, h])⟩
  · have hidle : (edge s).wav.state = .idle := by rw [edge_wav, hrst]; rfl
    exact ⟨hidle, decide_eq_false (by rw [hidle]; decide)⟩

/-- R150: in PAYLOAD the two ports transfer at the same edge or not at all. -/
theorem fires_wavIn_eq_wavOut {s : State} (h : s.wav.state = .payload) : s.fires .wavIn = s.fires .wavOut := by
  cases hv : s.pins.wav.inValid <;> simp [State.fires, State.validOf, State.readyOf, wavInReady, wavOutput, h, hv]

/-- Settles O42: the outputs are read off `wav_state`. -/
theorem wavOutputs : Obligations.WavOutputs := by
  intro s
  refine ⟨fun h => ?idle, fun h => ?header, fun h => ?payload, fun h => ?fault, rfl⟩
  case payload =>
    refine ⟨?_, ?_, ?_, ?_, fires_wavIn_eq_wavOut h⟩ <;>
      simp [State.readyOf, State.wavErr, wavCmdReady, wavInReady, wavOutput, h, ← BitVec.toNat_inj]
  all_goals
    simp [State.readyOf, State.wavErr, wavCmdReady, wavInReady, wavOutput, wavHdrNow, h, ← BitVec.toNat_inj]

/-! ### The header and its fields (42_wav_wrap.md R142 to R144) -/

/-- R143: the thirteen fields in order. -/
theorem wavHeader_eq_fields (n rate ch bits : Nat) (le : Bool) :
    wavHeader n rate ch bits le =
      asciiRiff ++ ser le 4 (riffSize n) ++ asciiWave ++ asciiFmt ++ ser le 4 Config.fmtSize ++ ser le 2 Config.fmtTag ++
      ser le 2 ch ++ ser le 4 rate ++ ser le 4 (byteRate ch rate bits) ++ ser le 2 (blockAlign ch bits) ++
      ser le 2 bits ++ asciiData ++ ser le 4 n := rfl

@[simp] theorem wavHeader_length (n rate ch bits : Nat) (le : Bool) : (wavHeader n rate ch bits le).length = 44 := by
  simp [wavHeader]

/-- R152: the byte offered in HEADER is the header's byte at the index. -/
theorem wavHeader_getElem?_idx (r : WavRegs) (h : r.idx.toNat ≤ 43) :
    (wavHeader r.rem.toNat r.rate.toNat r.ch.toNat r.bits.toNat r.le)[r.idx.toNat]? = some (wavHdrNow r) := by
  have hidx : r.idx.toNat < Config.hdrLen := Nat.lt_succ_of_le h
  rw [wavHeader, List.getElem?_map, List.getElem?_range hidx]
  rfl

/-- Settles O44: the fields stand in order, and R142's products stay below the product of their operands' bounds. -/
theorem headerLayout : Obligations.HeaderLayout := by
  intro n rate ch bits le
  refine ⟨wavHeader_eq_fields n rate ch bits le, wavHeader_length n rate ch bits le, fun hn => by omega,
    fun hch hrate hbits => ⟨?_, ?_⟩, wavHeader_getElem?_idx⟩
  · have h : ch * rate * bits < 2 ^ 16 * 2 ^ 32 * 2 ^ 16 := Nat.mul_lt_mul'' (Nat.mul_lt_mul'' hch hrate) hbits
    exact h
  · have h : ch * bits < 2 ^ 16 * 2 ^ 16 := Nat.mul_lt_mul'' hch hbits
    exact h

@[simp] theorem ser_length (le : Bool) (k x : Nat) : (ser le k x).length = k := by simp [ser]

theorem ser_getD (le : Bool) {k j : Nat} (x : Nat) (hj : j < k) : (ser le k x).getD j 0 = serByte le k x j := by
  simp [ser, List.getD_eq_getElem?_getD, List.getElem?_range hj]

/-- R144: byte `j` of one order is byte `k - 1 - j` of the other. -/
theorem ser_false_eq_reverse (k x : Nat) : ser false k x = (ser true k x).reverse := by
  refine List.ext_getElem (by simp) fun j hj _ => ?_
  simp [ser, List.getElem_reverse, serByte]

/-- The low `8 * k` bits of a value are its `k` low bytes, each at its weight. -/
theorem sum_bytes_eq_mod (k x : Nat) :
    ((List.range k).map fun j => x / 2 ^ (8 * j) % 2 ^ 8 * 2 ^ (8 * j)).sum = x % 2 ^ (8 * k) := by
  induction k with
  | zero => simp [Nat.mod_one]
  | succ k ih =>
    rw [List.range_succ, List.map_append, List.sum_append, ih, Nat.mul_succ, Nat.pow_add, Nat.mod_mul]
    simp [Nat.mul_comm (2 ^ (8 * k))]

/-- R144: no bit of a value that fits its field is lost. -/
theorem sum_ser_true {k x : Nat} (hx : x < 2 ^ (8 * k)) :
    ((List.range k).map fun j => ((ser true k x).getD j 0).toNat * 2 ^ (8 * j)).sum = x := by
  have hbyte : ∀ j ∈ List.range k,
      ((ser true k x).getD j 0).toNat * 2 ^ (8 * j) = x / 2 ^ (8 * j) % 2 ^ 8 * 2 ^ (8 * j) := by
    intro j hj
    rw [ser_getD true x (List.mem_range.mp hj), serByte, if_pos rfl, Nat.and_two_pow_sub_one_eq_mod _ 8,
      Nat.shiftRight_eq_div_pow]
    simp
  rw [List.map_congr_left hbyte, sum_bytes_eq_mod, Nat.mod_eq_of_lt hx]

/-- The bytes of the header from an offset on. -/
abbrev headerField (n rate ch bits : Nat) (le : Bool) (offset width : Nat) : List Byte :=
  ((wavHeader n rate ch bits le).drop offset).take width

/-- R143: the nine integer fields stand at their offsets. -/
theorem headerField_integers (n rate ch bits : Nat) (le : Bool) :
    [(4, 4), (16, 4), (20, 2), (22, 2), (24, 4), (28, 4), (32, 2), (34, 2), (40, 4)].map
        (fun f => headerField n rate ch bits le f.1 f.2) =
      [ser le 4 (riffSize n), ser le 4 Config.fmtSize, ser le 2 Config.fmtTag, ser le 2 ch, ser le 4 rate,
        ser le 4 (byteRate ch rate bits), ser le 2 (blockAlign ch bits), ser le 2 bits, ser le 4 n] := rfl

/-- R143: the four literals stand at their offsets. -/
theorem headerField_literals (n rate ch bits : Nat) (le : Bool) :
    [0, 8, 12, 36].map (fun offset => headerField n rate ch bits le offset 4) =
      [asciiRiff, asciiWave, asciiFmt, asciiData] := rfl

/-- R144: each integer field is reversed within its own bytes. -/
theorem headerField_integers_reverse (n rate ch bits : Nat) :
    ∀ f ∈ [(4, 4), (16, 4), (20, 2), (22, 2), (24, 4), (28, 4), (32, 2), (34, 2), (40, 4)],
      headerField n rate ch bits false f.1 f.2 = (headerField n rate ch bits true f.1 f.2).reverse := by
  rw [← List.map_inj_left, headerField_integers]
  simp only [ser_false_eq_reverse]
  exact (List.map_map ..).symm.trans (congrArg (List.map _) (headerField_integers n rate ch bits true)) |>.symm

/-- R144: the four literals are the same in both orders. -/
theorem headerField_literals_same (n rate ch bits : Nat) :
    ∀ offset ∈ [0, 8, 12, 36],
      headerField n rate ch bits false offset 4 = headerField n rate ch bits true offset 4 := by
  rw [← List.map_inj_left, headerField_literals, headerField_literals]

/-- Settles O45: the two orders of `serByte`, and the fields of R143 at their offsets. -/
theorem fieldSerialisation : Obligations.FieldSerialisation := by
  intro k x
  exact ⟨fun le => ser_length le k x, fun j hj => ⟨ser_getD true x hj, ser_getD false x hj⟩, ser_false_eq_reverse k x,
    sum_ser_true, fun n rate ch bits =>
      ⟨headerField_integers_reverse n rate ch bits, headerField_literals_same n rate ch bits⟩⟩

/-! ### The frame (42_wav_wrap.md R140, R147, R155) -/

/-- Settles O46: `wav_wrap` appends the payload to a header of 44 bytes. -/
theorem frameBytes : Obligations.FrameBytes := by
  intro p rate ch bits le
  refine ⟨fun hfits => ⟨_, if_neg (Nat.not_lt.mpr hfits), by simp, by simp, fun j => ?_⟩, fun hover => if_pos hover⟩
  rw [List.getElem?_append_right (by simp), wavHeader_length, Nat.add_sub_cancel_left]

/-! ### `last` (42_wav_wrap.md R155) -/

@[simp] theorem unmarked_length (bs : List Byte) : (unmarked bs).length = bs.length := List.length_map _

/-- The number of beats with `last` at 1. -/
def lastCount (out : List FrameByte) : Nat := (out.filter fun b => b.last).length

theorem lastCount_append (a b : List FrameByte) : lastCount (a ++ b) = lastCount a + lastCount b := by
  simp [lastCount]

@[simp] theorem lastCount_unmarked (bs : List Byte) : lastCount (unmarked bs) = 0 := by
  simp [lastCount, unmarked]

/-- The beats of a frame: all its bytes but the final one unmarked, and the final one marked. -/
theorem frameOf_eq_concat (c : WrapCmd) (p : List Byte) (hp : p.length = c.len.toNat)
    (hl : c.len.toNat ≤ Config.lenMax) :
    ∃ bs b, bs.length = 43 + c.len.toNat ∧ frameOf c p = unmarked bs ++ [⟨b, true⟩] := by
  have hne : c.header ++ p ≠ [] := List.ne_nil_of_length_pos (by simp)
  obtain ⟨bs, b, hbytes⟩ := (List.eq_nil_or_concat' (c.header ++ p)).resolve_left hne
  refine ⟨bs, b, ?_, frameOf_of_concat hbytes hp hl⟩
  have hlen := congrArg List.length hbytes
  simp only [List.length_append, WrapCmd.header_length, List.length_singleton] at hlen
  omega

theorem lastCount_frameOf (c : WrapCmd) (p : List Byte) (hp : p.length = c.len.toNat)
    (hl : c.len.toNat ≤ Config.lenMax) : lastCount (frameOf c p) = 1 := by
  obtain ⟨bs, b, -, hframe⟩ := frameOf_eq_concat c p hp hl
  rw [hframe, lastCount_append, lastCount_unmarked]
  rfl

/-- One `last` for each frame of a sequence of commands whose bytes the payload stream holds (R156). -/
theorem lastCount_framesOf (cs : List WrapCmd) (p : List Byte) (hl : ∀ c ∈ cs, c.len.toNat ≤ Config.lenMax)
    (hp : p.length = (cs.map fun c => c.len.toNat).sum) : lastCount (framesOf cs p) = cs.length := by
  induction cs generalizing p with
  | nil => rfl
  | cons c cs ih =>
    simp only [List.map_cons, List.sum_cons] at hp
    obtain ⟨hc, hcs⟩ := List.forall_mem_cons.mp hl
    rw [framesOf, lastCount_append, lastCount_frameOf c _ (by simp; omega) hc, ih _ hcs (by simp; omega),
      List.length_cons, Nat.add_comm]

theorem Delivered.lastCount_eq {cs : List WrapCmd} {p : List Byte} {out : List FrameByte} (h : Delivered cs p out) :
    lastCount out = cs.length := by
  obtain ⟨hl, hp, rfl⟩ := h
  exact lastCount_framesOf cs p hl hp

/-- Settles O49: only the final byte of a frame is marked, and a frame in progress has no marked byte yet. -/
theorem lastOncePerFrame : Obligations.LastOncePerFrame := by
  refine ⟨fun c p hp hl => ?frame, fun s hs => ?streams⟩
  case frame =>
    obtain ⟨bs, b, hlen, hframe⟩ := frameOf_eq_concat c p hp hl
    refine ⟨by simp [hframe, hlen]; omega, fun i hi => ?_⟩
    have hi' : i < bs.length + 1 := by simpa [hframe] using hi
    simp only [hframe, ← hlen]
    by_cases hlast : i = bs.length
    · simp [hlast]
    · rw [List.getElem_append_left (by simp; omega)]
      simp [unmarked, hlast]
  case streams =>
    show lastCount s.wavStreams.out = _
    cases h : s.wav.state with
    | idle => exact ((wavAgrees_idle h).mp hs).lastCount_eq
    | header =>
      obtain ⟨cmds, out, hcmds, hdel, -, -, hout⟩ := (wavAgrees_header h).mp hs
      simp [hcmds, hout, lastCount_append, hdel.lastCount_eq]
    | payload =>
      obtain ⟨cmds, c, before, now, out, hcmds, -, hdel, -, -, -, hout⟩ := (wavAgrees_payload h).mp hs
      simp [hcmds, hout, lastCount_append, hdel.lastCount_eq]
    | fault =>
      obtain ⟨cmds, hcmds, hdel, -⟩ := (wavAgrees_fault h).mp hs
      simp [hcmds, hdel.lastCount_eq]

/-! ### Runs of WAV through HEADER and PAYLOAD (42_wav_wrap.md R152, R153) -/

theorem State.pins_of_inputs_cons {s : State} {p : Pins} {rest : List Pins} (h : s.inputs = p :: rest) :
    s.pins = p := by
  rw [State.pins, h]; rfl

/-- Bytes that leave one after another, `last` on the final one when they end their frame. -/
def beatsOf (ends : Bool) (bs : List Byte) : List FrameByte := if ends then markLast bs else unmarked bs

theorem beatsOf_nil (ends : Bool) : beatsOf ends [] = [] := by cases ends <;> rfl

theorem beatsOf_cons (ends : Bool) (b : Byte) (bs : List Byte) :
    beatsOf ends (b :: bs) = ⟨b, ends && bs.isEmpty⟩ :: beatsOf ends bs := by
  cases ends with
  | false => rfl
  | true => cases bs <;> rfl

theorem markLast_cons (b : Byte) (bs : List Byte) : markLast (b :: bs) = ⟨b, bs.isEmpty⟩ :: markLast bs :=
  beatsOf_cons true b bs

/-- R155: bytes before further bytes of the frame are not its last. -/
theorem markLast_append {bs : List Byte} (as : List Byte) (h : bs ≠ []) :
    markLast (as ++ bs) = unmarked as ++ markLast bs := by
  induction as with
  | nil => rfl
  | cons a as ih =>
    rw [List.cons_append, markLast_cons, ih, List.isEmpty_eq_false_iff.mpr (List.append_ne_nil_of_right_ne_nil as h)]
    rfl

/-- R153: as many edges that offer and take a byte as `wav_rem` counts pass exactly those bytes and return to IDLE. -/
theorem edges_payload (ps rest : List Pins) (s : State) (h : s.wav.state = .payload) (hrem : 1 ≤ s.wav.rem.toNat)
    (hinputs : s.inputs = ps ++ rest) (hlen : ps.length = s.wav.rem.toNat)
    (hps : ∀ p ∈ ps, p.rst = false ∧ p.wav.outReady = true ∧ p.wav.inValid = true) :
    (edges ps.length s).inputs = rest ∧ (edges ps.length s).wav.state = .idle ∧
      (edges ps.length s).wavStreams =
        { s.wavStreams with
          payload := s.wavStreams.payload ++ ps.map fun p => p.wav.inData
          out := s.wavStreams.out ++ markLast (ps.map fun p => p.wav.inData) } := by
  induction ps generalizing s with
  | nil => simp at hlen; omega
  | cons p ps ih =>
    obtain ⟨⟨hrst, hready, hvalid⟩, hps⟩ := List.forall_mem_cons.mp hps
    have hpins : s.pins = p := State.pins_of_inputs_cons hinputs
    obtain ⟨hregs, hstreams⟩ := edge_wav_payload (hpins ▸ hrst) h (hpins ▸ hvalid) (hpins ▸ hready)
    have hrest : (edge s).inputs = ps ++ rest := by rw [edge_inputs, hinputs]; rfl
    rw [hpins] at hstreams
    rw [List.length_cons] at hlen
    by_cases hone : s.wav.rem.toNat = 1
    · obtain rfl : ps = [] := List.length_eq_zero_iff.mp (by omega)
      refine ⟨hrest, ?_, ?_⟩
      · rw [if_pos hone] at hregs
        exact congrArg WavRegs.state hregs
      · exact hstreams.trans (by simp [hone, markLast])
    · have hpred : (s.wav.rem - 1).toNat = s.wav.rem.toNat - 1 := BitVec.toNat_sub_of_le hrem
      rw [if_neg hone, if_neg hone] at hregs
      obtain ⟨hin, hidle, hstr⟩ := ih (edge s) (by rw [hregs]) (by rw [hregs, hpred]; omega) hrest
        (by rw [hregs, hpred]; omega) hps
      have hmore : ps ≠ [] := List.ne_nil_of_length_pos (by omega)
      rw [hstreams] at hstr
      exact ⟨hin, hidle, hstr.trans (by simp [markLast_cons, hmore, hone])⟩

/-- R152: what is left of the header begins with the byte on offer. -/
theorem drop_header_eq_cons (r : WavRegs) (h : r.idx.toNat ≤ 43) :
    r.latched.header.drop r.idx.toNat = wavHdrNow r :: r.latched.header.drop (r.idx.toNat + 1) := by
  have hlt : r.idx.toNat < r.latched.header.length := by simp; omega
  obtain ⟨_, hbyte⟩ := List.getElem?_eq_some_iff.mp (wavHeader_getElem?_idx r h)
  rw [List.drop_eq_getElem_cons hlt]
  exact congrArg (· :: _) hbyte

/-- R152: from index `i`, `44 - i` edges at which the host is ready bring out the rest of the header; it ends the frame of
an empty payload. -/
theorem edges_header (hs rest : List Pins) (s : State) (h : s.wav.state = .header)
    (hlen : s.wav.idx.toNat + hs.length = 44) (hne : hs ≠ []) (hinputs : s.inputs = hs ++ rest)
    (hhs : ∀ p ∈ hs, p.rst = false ∧ p.wav.outReady = true) :
    (edges hs.length s).inputs = rest ∧
      (edges hs.length s).wav.state = (if s.wav.rem.toNat = 0 then .idle else .payload) ∧
      (edges hs.length s).wav.rem = s.wav.rem ∧
      (edges hs.length s).wavStreams =
        { s.wavStreams with
          out := s.wavStreams.out ++
            beatsOf (decide (s.wav.rem.toNat = 0)) (s.wav.latched.header.drop s.wav.idx.toNat) } := by
  induction hs generalizing s with
  | nil => exact absurd rfl hne
  | cons p hs ih =>
    obtain ⟨⟨hrst, hready⟩, hhs⟩ := List.forall_mem_cons.mp hhs
    have hpins : s.pins = p := State.pins_of_inputs_cons hinputs
    obtain ⟨hregs, hstreams⟩ := edge_wav_header (hpins ▸ hrst) h (hpins ▸ hready)
    have hrest : (edge s).inputs = hs ++ rest := by rw [edge_inputs, hinputs]; rfl
    rw [List.length_cons] at hlen
    have hbyte : s.wav.latched.header.drop s.wav.idx.toNat =
        wavHdrNow s.wav :: s.wav.latched.header.drop (s.wav.idx.toNat + 1) :=
      drop_header_eq_cons s.wav (by omega)
    rw [hbyte, beatsOf_cons]
    by_cases hlt : s.wav.idx.toNat < 43
    · have hsucc : (s.wav.idx + 1).toNat = s.wav.idx.toNat + 1 := BitVec.toNat_add_of_lt (by simp; omega)
      rw [if_pos hlt, if_pos hlt] at hregs
      have hlatched : (edge s).wav.latched = s.wav.latched := by rw [hregs]; rfl
      obtain ⟨hin, hstate, hrem, hstr⟩ := ih (edge s) (by rw [hregs]) (by rw [hregs, hsucc]; omega)
        (List.ne_nil_of_length_pos (by omega)) hrest hhs
      rw [hlatched, hregs, hsucc] at hstr
      rw [hregs] at hstate hrem
      have hmore : s.wav.latched.header.drop (s.wav.idx.toNat + 1) ≠ [] :=
        List.ne_nil_of_length_pos (by simp; omega)
      rw [hstreams] at hstr
      exact ⟨hin, hstate, hrem, hstr.trans (by simp [hmore, hlt.ne])⟩
    · obtain rfl : hs = [] := List.length_eq_zero_iff.mp (by omega)
      rw [if_neg hlt, if_neg hlt] at hregs
      have h43 : s.wav.idx.toNat = 43 := by omega
      have hend : s.wav.latched.header.drop (43 + 1) = [] := List.drop_eq_nil_of_le (by simp)
      refine ⟨hrest, congrArg (fun r => r.state) hregs, congrArg (fun r => r.rem) hregs, hstreams.trans ?_⟩
      simp [h43, hend, beatsOf_nil]

/-- R152, R153: PAYLOAD is entered from HEADER alone, with at least one byte to pass. -/
theorem edge_enters_payload {s : State} (ht : (edge s).wav.state = .payload) (hs : s.wav.state ≠ .payload) :
    s.wav.state = .header ∧ (edge s).wav.rem = s.wav.rem ∧ 1 ≤ (edge s).wav.rem.toNat := by
  cases hrst : s.pins.rst with
  | true => rw [edge_wav, hrst] at ht; cases ht
  | false =>
    cases h : s.wav.state with
    | idle =>
      rw [edge_wav_idle hrst h] at ht
      cases hc : s.pins.wrapCmd with
      | none => rw [hc, wavIdleEdge, h] at ht; cases ht
      | some c => rw [hc, wavIdleEdge_some] at ht; dsimp only at ht; split at ht <;> cases ht
    | header =>
      cases hready : s.pins.wav.outReady with
      | false =>
        rw [(edge_wav_waits hrst (by simp [h]) ((fires_wavOut_header hrst h).trans hready)).1, h] at ht; cases ht
      | true =>
        have hregs := (edge_wav_header hrst h hready).1
        have hrem : s.wav.rem.toNat ≠ 0 := by
          intro h0
          rw [hregs] at ht
          simp only [h0, if_true] at ht
          split at ht <;> cases ht
        rw [hregs]
        exact ⟨rfl, rfl, Nat.one_le_iff_ne_zero.mpr hrem⟩
    | payload => exact absurd h hs
    | fault => rw [edge_wav, hrst, wavNext_fault h, h] at ht; cases ht

/-- R153: out of PAYLOAD no payload byte is taken. -/
theorem edge_payload_stream {s : State} (hrst : s.pins.rst = false) (h : s.wav.state ≠ .payload) :
    (edge s).wavStreams.payload = s.wavStreams.payload := by
  simp [wavStreamsNext, wavInReady, hrst, h]

/-- Settles O40: PAYLOAD passes a byte or waits, and `edges_payload` counts the bytes. -/
theorem wavPayloadEdgeRule : Obligations.WavPayloadEdge := by
  refine ⟨fun s hrst h => ⟨edge s, step_eq_edge s, fun ⟨hvalid, hready⟩ => ?passes, fun hwait => ?waits⟩,
    fun s t hstep ht hs => ?entered, fun s ps rest h hrem hinputs hlen hps => ?whole,
    fun s hrst h => ⟨?notReady, edge s, step_eq_edge s, edge_payload_stream hrst h⟩⟩
  case passes =>
    obtain ⟨hregs, hstreams⟩ := edge_wav_payload hrst h hvalid hready
    rw [hstreams]
    exact ⟨rfl, rfl, hregs⟩
  case waits =>
    have hfire : s.fires .wavOut = false := by
      rw [fires_wavOut_payload hrst h, Bool.eq_false_iff, ne_eq, Bool.and_eq_true]
      exact hwait
    obtain ⟨hregs, hstreams⟩ := edge_wav_waits hrst (by simp [h]) hfire
    exact ⟨hregs, congrArg _ hstreams, congrArg _ hstreams⟩
  case entered =>
    obtain rfl := step_next_iff.mp hstep
    exact edge_enters_payload ht hs
  case whole =>
    obtain ⟨-, hidle, hstreams⟩ := edges_payload ps rest s h hrem hinputs hlen hps
    exact ⟨_, runEdges_eq_edges s _, hidle, congrArg _ hstreams⟩
  case notReady => simp [State.readyOf, wavInReady, h]

/-! ### A whole frame (42_wav_wrap.md R160) -/

/-- From HEADER at index 0 the header and then the payload leave, the final byte of the frame marked. -/
theorem edges_frame (hs ps rest : List Pins) (s : State) (h : s.wav.state = .header) (hidx : s.wav.idx.toNat = 0)
    (hinputs : s.inputs = hs ++ (ps ++ rest)) (hlen : hs.length = 44)
    (hhs : ∀ p ∈ hs, p.rst = false ∧ p.wav.outReady = true) (hrem : ps.length = s.wav.rem.toNat)
    (hps : ∀ p ∈ ps, p.rst = false ∧ p.wav.outReady = true ∧ p.wav.inValid = true) :
    (edges (44 + ps.length) s).inputs = rest ∧ (edges (44 + ps.length) s).wav.state = .idle ∧
      (edges (44 + ps.length) s).wavStreams =
        { s.wavStreams with
          payload := s.wavStreams.payload ++ ps.map fun p => p.wav.inData
          out := s.wavStreams.out ++ markLast (s.wav.latched.header ++ ps.map fun p => p.wav.inData) } := by
  obtain ⟨hin, hstate, hrem', hstr⟩ := edges_header hs (ps ++ rest) s h (by omega)
    (List.ne_nil_of_length_pos (by omega)) hinputs hhs
  rw [hlen] at hin hstate hrem' hstr
  rw [hidx, List.drop_zero] at hstr
  rw [edges_add]
  by_cases hzero : s.wav.rem.toNat = 0
  · obtain rfl : ps = [] := List.length_eq_zero_iff.mp (by omega)
    rw [if_pos hzero] at hstate
    exact ⟨hin, hstate, hstr.trans (by simp [hzero, beatsOf])⟩
  · rw [if_neg hzero] at hstate
    obtain ⟨hin', hidle, hstr'⟩ := edges_payload ps rest (edges 44 s) hstate (by rw [hrem']; omega) hin
      (by rw [hrem', hrem]) hps
    have hne : (ps.map fun p => p.wav.inData) ≠ [] := List.ne_nil_of_length_pos (by simp; omega)
    rw [hstr] at hstr'
    exact ⟨hin', hidle, hstr'.trans (by simp [hzero, beatsOf, markLast_append _ hne])⟩

/-- R160: a legal command taken in IDLE, 44 ready edges and its payload bring out its frame. -/
theorem edges_command_frame (s : State) (c : WrapCmd) (p : Pins) (hs ps rest : List Pins) (hidle : s.wav.state = .idle)
    (hinputs : s.inputs = p :: (hs ++ (ps ++ rest))) (hp : p.rst = false) (hcmd : p.wrapCmd = some c)
    (hlen : hs.length = 44) (hhs : ∀ h ∈ hs, h.rst = false ∧ h.wav.outReady = true)
    (hplen : ps.length = c.len.toNat) (hps : ∀ h ∈ ps, h.rst = false ∧ h.wav.outReady = true ∧ h.wav.inValid = true)
    (hl : c.len.toNat ≤ Config.lenMax) :
    (edges (45 + c.len.toNat) s).inputs = rest ∧ (edges (45 + c.len.toNat) s).wav.state = .idle ∧
      (edges (45 + c.len.toNat) s).wavStreams =
        { cmds := s.wavStreams.cmds ++ [c]
          payload := s.wavStreams.payload ++ ps.map fun p => p.wav.inData
          out := s.wavStreams.out ++ markLast (c.header ++ ps.map fun p => p.wav.inData) } := by
  have hpins : s.pins = p := State.pins_of_inputs_cons hinputs
  have hregs := edge_wav_idle (hpins ▸ hp) hidle
  have hstreams := edge_wavStreams_idle (hpins ▸ hp) hidle
  have hrest : (edge s).inputs = hs ++ (ps ++ rest) := by rw [edge_inputs, hinputs]; rfl
  rw [hpins, hcmd, wavIdleEdge_some, if_neg (Nat.not_lt.mpr hl)] at hregs
  rw [hpins, hcmd] at hstreams
  have hlatched : (edge s).wav.latched = c := by rw [hregs]; rfl
  have hframe := edges_frame hs ps rest (edge s) (by rw [hregs]) (by rw [hregs]; rfl) hrest hlen hhs
    (by rw [hregs]; exact hplen) hps
  rw [hlatched, hstreams] at hframe
  rw [← hplen, show 45 + ps.length = 1 + (44 + ps.length) by omega, edges_add]
  exact hframe

/-! ### Progress of WAV under a host (70_reset_and_hazards.md R214, R215, R223) -/

/-- An upper bound on the bytes WAV has yet to give before it is in IDLE again, for registers at any value at all. -/
def WavRegs.owed (r : WavRegs) : Nat :=
  match r.state with
  | .idle | .fault => 0
  | .header => 2 ^ 32 + (64 - r.idx.toNat)
  | .payload => (r.rem - 1).toNat + 1

/-- A byte that leaves is one less to give, and does not lead to FAULT. -/
theorem edge_wav_owed {s : State} (hrst : s.pins.rst = false) (hbusy : s.wav.state ≠ .idle)
    (hfire : s.fires .wavOut = true) : (edge s).wav.owed < s.wav.owed ∧ (edge s).wav.state ≠ .fault := by
  cases h : s.wav.state with
  | idle => exact absurd h hbusy
  | header =>
    rw [fires_wavOut_header hrst h] at hfire
    rw [(edge_wav_header hrst h hfire).1]
    have hidx : s.wav.idx.toNat < 64 := s.wav.idx.isLt
    have howed : s.wav.owed = 2 ^ 32 + (64 - s.wav.idx.toNat) := by simp only [WavRegs.owed, h]
    rw [howed]
    by_cases hlt : s.wav.idx.toNat < 43
    · have hsucc : (s.wav.idx + 1).toNat = s.wav.idx.toNat + 1 := BitVec.toNat_add_of_lt (by simp; omega)
      simp only [WavRegs.owed, hlt, if_true, hsucc]
      exact ⟨by omega, by decide⟩
    · have hrem := (s.wav.rem - 1).isLt
      by_cases hzero : s.wav.rem.toNat = 0
      · simp only [WavRegs.owed, hlt, hzero, if_true, if_false]
        exact ⟨by omega, by decide⟩
      · simp only [WavRegs.owed, hlt, hzero, if_false]
        exact ⟨by omega, by decide⟩
  | payload =>
    rw [fires_wavOut_payload hrst h, Bool.and_eq_true] at hfire
    rw [(edge_wav_payload hrst h hfire.1 hfire.2).1]
    have howed : s.wav.owed = (s.wav.rem - 1).toNat + 1 := by simp only [WavRegs.owed, h]
    rw [howed]
    by_cases hone : s.wav.rem.toNat = 1
    · simp only [WavRegs.owed, hone, if_true]
      exact ⟨by omega, by decide⟩
    · have hpos : 1 ≤ (s.wav.rem - 1).toNat := by bv_omega
      have hpred : (s.wav.rem - 1 - 1).toNat = (s.wav.rem - 1).toNat - 1 := BitVec.toNat_sub_of_le hpos
      simp only [WavRegs.owed, hone, if_false, hpred]
      exact ⟨by omega, by decide⟩
  | fault => simp [State.fires, State.validOf, wavOutput, h] at hfire

section
variable {s : State} {host : Nat → Pins} (hno : NoReset host)
include hno

/-- R214: out of IDLE, WAV's registers stay as they are while no byte leaves. -/
theorem hostEdges_wav_waits {k : Nat} (hbusy : (hostEdges host k s).wav.state ≠ .idle)
    (hfire : ∀ j, k ≤ j → (hostEdges host j s).wav = (hostEdges host k s).wav →
      ((hostEdges host j s).showing (host j)).fires .wavOut = false) :
    ∀ j, k ≤ j → (hostEdges host j s).wav = (hostEdges host k s).wav := by
  intro j hj
  induction j, hj using Nat.le_induction with
  | base => rfl
  | succ j hj ih =>
    have hwait := edge_wav_waits (s := (hostEdges host j s).showing (host j)) (hno j)
      (by rw [State.showing_wav, ih]; exact hbusy) (hfire j hj ih)
    exact hwait.1.trans ih

variable (hfair : FairOn .wavOut host s)
include hfair

/-- R223: HEADER always offers a byte, so one leaves if WAV stays there. -/
theorem hostEdges_header_fires {k : Nat} (h : ∀ j, k ≤ j → (hostEdges host j s).wav.state = .header) :
    ∃ j, k ≤ j ∧ ((hostEdges host j s).showing (host j)).fires .wavOut = true := by
  have hvalid : ((hostEdges host k s).showing (host k)).validOf .wavOut = true := by
    simp [State.validOf, wavOutput, h k le_rfl]
  obtain ⟨j, hj, hready⟩ := hfair k _ (hostRun_eq_hostEdges ..) hvalid
  exact ⟨j, hj, (fires_wavOut_header (s := (hostEdges host j s).showing (host j)) (hno j) (h j hj)).trans hready⟩

variable (hfeeds : FeedsPayload host s) (hsteady : SteadyPayload host s)
include hfeeds hsteady

/-- R215, R223: a payload byte, once offered, stays on offer until the host takes it, so one passes if WAV stays in
PAYLOAD. -/
theorem hostEdges_payload_fires {k : Nat} (h : ∀ j, k ≤ j → (hostEdges host j s).wav.state = .payload) :
    ∃ j, k ≤ j ∧ ((hostEdges host j s).showing (host j)).fires .wavOut = true := by
  by_contra hnever
  have hblocked (j) (hj : k ≤ j) : ¬ ((host j).wav.inValid = true ∧ (host j).wav.outReady = true) := fun hbeat =>
    hnever ⟨j, hj, (fires_wavOut_payload (s := (hostEdges host j s).showing (host j)) (hno j) (h j hj)).trans
      (Bool.and_eq_true_iff.mpr hbeat)⟩
  obtain ⟨i, hi, hoffered⟩ := hfeeds k _ (hostRun_eq_hostEdges ..) (h k le_rfl)
  have hkept : ∀ j, i ≤ j → (host j).wav.inValid = true := by
    intro j hj
    induction j, hj using Nat.le_induction with
    | base => exact hoffered
    | succ j hj ih =>
      have hready : (host j).wav.outReady = false :=
        Bool.eq_false_iff.mpr fun hready => hblocked j (hi.trans hj) ⟨ih, hready⟩
      exact (hsteady j _ (hostRun_eq_hostEdges ..) (h j (hi.trans hj)) (hno j) ih hready).1
  have hvalid : ((hostEdges host i s).showing (host i)).validOf .wavOut = true := by
    simp [State.validOf, wavOutput, h i hi, hoffered]
  obtain ⟨j, hj, hready⟩ := hfair i _ (hostRun_eq_hostEdges ..) hvalid
  exact hblocked j (hi.trans hj) ⟨hkept j hj, hready⟩

/-- R223: out of IDLE and FAULT a byte leaves sooner or later, from the registers as they are. -/
theorem hostEdges_wavOut_fires {k : Nat} (hidle : (hostEdges host k s).wav.state ≠ .idle)
    (hfault : (hostEdges host k s).wav.state ≠ .fault) :
    ∃ j, k ≤ j ∧ (hostEdges host j s).wav = (hostEdges host k s).wav ∧
      ((hostEdges host j s).showing (host j)).fires .wavOut = true := by
  by_contra hnever
  push Not at hnever
  simp only [ne_eq, Bool.not_eq_true] at hnever
  have hsame := hostEdges_wav_waits hno hidle hnever
  have hfires : ∃ j, k ≤ j ∧ ((hostEdges host j s).showing (host j)).fires .wavOut = true := by
    cases h : (hostEdges host k s).wav.state with
    | idle => exact absurd h hidle
    | header => exact hostEdges_header_fires hno hfair fun j hj => by rw [hsame j hj, h]
    | payload => exact hostEdges_payload_fires hno hfair hfeeds hsteady fun j hj => by rw [hsame j hj, h]
    | fault => exact absurd h hfault
  obtain ⟨j, hj, hfire⟩ := hfires
  exact Bool.false_ne_true ((hnever j hj (hsame j hj)).symm.trans hfire)

/-- R223: WAV is in IDLE again after any moment not in FAULT. -/
theorem hostEdges_reaches_idle {k : Nat} (hfault : (hostEdges host k s).wav.state ≠ .fault) :
    ∃ j, k ≤ j ∧ (hostEdges host j s).wav.state = .idle := by
  induction howed : (hostEdges host k s).wav.owed using Nat.strong_induction_on generalizing k with
  | _ n ih =>
    by_cases hidle : (hostEdges host k s).wav.state = .idle
    · exact ⟨k, le_rfl, hidle⟩
    obtain ⟨j, hj, hsame, hfire⟩ := hostEdges_wavOut_fires hno hfair hfeeds hsteady hidle hfault
    obtain ⟨hless, hfault'⟩ := edge_wav_owed (s := (hostEdges host j s).showing (host j)) (hno j)
      (by rw [State.showing_wav, hsame]; exact hidle) hfire
    rw [State.showing_wav, hsame, howed] at hless
    obtain ⟨i, hi, hend⟩ := ih _ hless (k := j + 1) hfault' rfl
    exact ⟨i, by omega, hend⟩

end

/-- R214: a run under a host from a state out of IDLE at which no byte ever leaves. -/
theorem hostRun_wav_waits {s : State} {host : Nat → Pins} (hno : NoReset host) (hbusy : s.wav.state ≠ .idle)
    (hfire : ∀ j (t : State), t.wav = s.wav → (t.showing (host j)).fires .wavOut = false) (k : Nat) :
    ∃ t, hostRun host k s = .next t ∧ t.wav = s.wav :=
  ⟨_, hostRun_eq_hostEdges s host k, hostEdges_wav_waits (k := 0) hno hbusy (fun j _ => hfire j _) k k.zero_le⟩

/-- Settles O48: a frame edge by edge, and what a host does and does not bring out. -/
theorem wrapFrameLeaves : Obligations.WrapFrameLeaves := by
  refine ⟨fun s c p hs ps rest hidle hinputs hp hcmd hlen hhs hplen hps hl => ?frame,
    fun s host hno hfair hfeeds hsteady k t hrun hfault => ?fair, fun s host hno hready hbusy => ?neverReady,
    fun s host hno hvalid h => ?neverOffered⟩
  case frame =>
    obtain ⟨hin, hend, hstreams⟩ :=
      edges_command_frame s c p hs ps rest hidle hinputs hp hcmd hlen hhs hplen hps hl
    refine ⟨_, runEdges_eq_edges s _, hin, hend, ?_⟩
    rw [hstreams]
    exact ⟨rfl, rfl, rfl⟩
  case fair =>
    obtain rfl := hostRun_next_iff.mp hrun
    obtain ⟨j, hj, hend⟩ := hostEdges_reaches_idle hno hfair hfeeds hsteady hfault
    exact ⟨j, _, hj, hostRun_eq_hostEdges s host j, hend⟩
  case neverReady =>
    refine hostRun_wav_waits hno (by rcases hbusy with h | h <;> simp [h]) fun j t _ => ?_
    simp [State.fires, State.readyOf, hready]
  case neverOffered =>
    refine hostRun_wav_waits hno (by simp [h]) fun j t ht => ?_
    simp [State.fires, State.validOf, wavOutput, ht, h, hvalid]

end Sys2Proof.Machine

namespace Sys2Proof.Machine

/-! ### A two-stage pipeline (43_buffer_forms_and_handshake.md R173 to R175, R180)

DEC and ENC move their beats in the same way and differ in their registers and in the function they compute. A pipeline
is what both are, once each stage is read as the answer it is to give. -/

/-- The answers the two stages hold, and the streams. -/
@[ext] structure Pipe (α β : Type) where
  stage1 : Option β
  stage2 : Option β
  taken : List α
  given : List β

namespace Pipe

/-- After a reset edge. -/
def empty {α β : Type} : Pipe α β := ⟨none, none, [], []⟩

variable {α β : Type} (f : α → β) (o : Option α) (p : Pipe α β)

/-- The answers given and those in flight, oldest first. -/
def answers : List β := p.given ++ p.stage2.toList ++ p.stage1.toList

/-- R180: what was taken, answered, is what was given and what is in flight. -/
def Agrees : Prop := p.taken.map f = p.answers

/-- R173: stage 2 is empty or is being emptied. -/
def stage2Free (ready : Bool) : Bool := p.stage2.isNone || ready

/-- R173: stage 1 is empty or will move on. -/
def stage1Free (ready : Bool) : Bool := p.stage1.isNone || p.stage2Free ready

/-- An edge that is no reset edge, with the beat `o` on offer (R171, R174, R175). -/
def edge (ready : Bool) : Pipe α β where
  stage1 := if p.stage1Free ready then o.map f else p.stage1
  stage2 := if p.stage2Free ready then p.stage1 else p.stage2
  taken := if p.stage1Free ready then p.taken ++ o.toList else p.taken
  given := if ready then p.given ++ p.stage2.toList else p.given

theorem edge_ready : p.edge f o true =
    { stage1 := o.map f, stage2 := p.stage1, taken := p.taken ++ o.toList, given := p.given ++ p.stage2.toList } := by
  simp [edge, stage1Free, stage2Free]

variable {p}

theorem edge_stage2_empty (h : p.stage2 = none) (ready : Bool) :
    p.edge f o ready = { stage1 := o.map f, stage2 := p.stage1, taken := p.taken ++ o.toList, given := p.given } := by
  simp [edge, stage1Free, stage2Free, h]

theorem edge_stage1_empty (h1 : p.stage1 = none) {b : β} (h2 : p.stage2 = some b) :
    p.edge f o false = { p with stage1 := o.map f, taken := p.taken ++ o.toList } := by
  simp [edge, stage1Free, stage2Free, h1, h2]

theorem edge_stalled {a b : β} (h1 : p.stage1 = some a) (h2 : p.stage2 = some b) : p.edge f o false = p := by
  ext1 <;> simp [edge, stage1Free, stage2Free, h1, h2]

/-- R172: a result that is not taken stays on offer, and none is given. -/
theorem edge_holds {b : β} (h : p.stage2 = some b) :
    (p.edge f o false).stage2 = some b ∧ (p.edge f o false).given = p.given := by
  simp [edge, stage2Free, h]

variable (p)

/-- The beats taken at an edge are the ones whose answers join the pipeline. -/
theorem edge_taken_answers (ready : Bool) :
    ∃ new : List α, (p.edge f o ready).taken = p.taken ++ new ∧
      (p.edge f o ready).answers = p.answers ++ new.map f := by
  have hmap : (o.map f).toList = o.toList.map f := Option.toList_map
  cases h2 : p.stage2 with
  | none => exact ⟨o.toList, by simp [edge_stage2_empty f o h2, answers, h2, hmap]⟩
  | some b =>
    cases ready with
    | true => exact ⟨o.toList, by simp [edge_ready, answers, h2, hmap]⟩
    | false =>
      cases h1 : p.stage1 with
      | none => exact ⟨o.toList, by simp [edge_stage1_empty f o h1 h2, answers, h1, hmap]⟩
      | some a => exact ⟨[], by simp [edge_stalled f o h1 h2]⟩

/-- With results taken, the beat on offer is taken. -/
theorem answers_edge_ready : (p.edge f o true).answers = p.answers ++ o.toList.map f := by
  simp [edge_ready, answers, Option.toList_map]

/-- R180: two edges with no beat on offer and results taken give all that is in flight. -/
theorem edge_edge_drains :
    (p.edge f none true).edge f none true =
      { stage1 := none, stage2 := none, taken := p.taken, given := p.answers } := by
  simp [edge_ready, answers]

variable {p}

theorem Agrees.edge (h : p.Agrees f) (ready : Bool) : (p.edge f o ready).Agrees f := by
  obtain ⟨new, htaken, hanswers⟩ := p.edge_taken_answers f o ready
  rw [Agrees, htaken, hanswers, List.map_append, h]

end Pipe

/-! ### A unit of the block that is a pipeline -/

/-- A unit read as a pipeline: the state it stands in, the function it computes, and the pins it reads. -/
structure PipeUnit (α β : Type) where
  pipe : State → Pipe α β
  answer : α → β
  offer : Pins → Option α
  ready : Pins → Bool
  pipe_setInputs : ∀ s l, pipe (s.setInputs l) = pipe s
  pipe_edge_rst : ∀ s, s.pins.rst = true → pipe (edge s) = .empty
  pipe_edge : ∀ s, s.pins.rst = false → pipe (edge s) = (pipe s).edge answer (offer s.pins) (ready s.pins)

namespace PipeUnit
variable {α β : Type} (u : PipeUnit α β) {s : State}

/-- The unit's streams agree with its function. -/
def Agrees (s : State) : Prop := (u.pipe s).Agrees u.answer

/-- R180 is kept: a reset edge begins the streams anew with nothing in flight. -/
theorem edge_agrees (h : u.Agrees s) : u.Agrees (edge s) := by
  unfold Agrees
  cases hrst : s.pins.rst with
  | true => rw [u.pipe_edge_rst s hrst]; rfl
  | false => rw [u.pipe_edge s hrst]; exact Pipe.Agrees.edge _ _ h _

/-! ### Runs on a list of inputs -/

theorem pipe_edge_cons {p : Pins} {rest : List Pins} (h : s.inputs = p :: rest) (hrst : p.rst = false) :
    u.pipe (edge s) = (u.pipe s).edge u.answer (u.offer p) (u.ready p) := by
  obtain rfl := State.pins_of_inputs_cons h
  exact u.pipe_edge s hrst

/-- R180: two edges with nothing on offer and results taken. -/
theorem edges_drain {p q : Pins} {rest : List Pins} (h : s.inputs = p :: q :: rest)
    (hp : p.rst = false ∧ u.offer p = none ∧ u.ready p = true)
    (hq : q.rst = false ∧ u.offer q = none ∧ u.ready q = true) :
    u.pipe (edges 2 s) =
      { stage1 := none, stage2 := none, taken := (u.pipe s).taken, given := (u.pipe s).answers } := by
  obtain ⟨hprst, hpo, hpr⟩ := hp
  obtain ⟨hqrst, hqo, hqr⟩ := hq
  have hnext : (edge s).inputs = q :: rest := by rw [edge_inputs, h]; rfl
  calc u.pipe (edges 2 s) = u.pipe (edge (edge s)) := rfl
    _ = _ := by
      rw [u.pipe_edge_cons hnext hqrst, u.pipe_edge_cons h hprst, hpo, hpr, hqo, hqr, Pipe.edge_edge_drains]

/-- R170: a buffer offered one beat an edge with results taken joins the answers, beat by beat. -/
theorem edges_buffer (beat : Pins → α) (buffer : List Pins) {rest : List Pins} (h : s.inputs = buffer ++ rest)
    (hbuffer : ∀ b ∈ buffer, b.rst = false ∧ u.offer b = some (beat b) ∧ u.ready b = true) :
    (edges buffer.length s).inputs = rest ∧
      (u.pipe (edges buffer.length s)).answers = (u.pipe s).answers ++ buffer.map fun b => u.answer (beat b) := by
  induction buffer generalizing s with
  | nil => exact ⟨h, (List.append_nil _).symm⟩
  | cons b bs ih =>
    obtain ⟨⟨hrst, hoffer, hready⟩, hbs⟩ := List.forall_mem_cons.mp hbuffer
    have hnext : (edge s).inputs = bs ++ rest := by rw [edge_inputs, h]; rfl
    obtain ⟨hinputs, hanswers⟩ := ih hnext hbs
    refine ⟨hinputs, hanswers.trans ?_⟩
    rw [u.pipe_edge_cons h hrst, hoffer, hready, Pipe.answers_edge_ready]
    simp

/-- R170, R180: a buffer and two more edges, from an empty pipeline. -/
theorem edges_buffer_drain (beat : Pins → α) (buffer : List Pins) {p q : Pins} {rest : List Pins}
    (h1 : (u.pipe s).stage1 = none) (h2 : (u.pipe s).stage2 = none) (h : s.inputs = buffer ++ p :: q :: rest)
    (hbuffer : ∀ b ∈ buffer, b.rst = false ∧ u.offer b = some (beat b) ∧ u.ready b = true)
    (hp : p.rst = false ∧ u.offer p = none ∧ u.ready p = true)
    (hq : q.rst = false ∧ u.offer q = none ∧ u.ready q = true) :
    (edges (buffer.length + 2) s).inputs = rest ∧ (u.pipe (edges (buffer.length + 2) s)).stage1 = none ∧
      (u.pipe (edges (buffer.length + 2) s)).stage2 = none ∧
      (u.pipe (edges (buffer.length + 2) s)).given = (u.pipe s).given ++ buffer.map fun b => u.answer (beat b) := by
  obtain ⟨hinputs, hanswers⟩ := u.edges_buffer beat buffer h hbuffer
  have hempty : (u.pipe s).answers = (u.pipe s).given := by simp [Pipe.answers, h1, h2]
  rw [edges_add, u.edges_drain hinputs hp hq, hanswers, hempty]
  refine ⟨?_, rfl, rfl, rfl⟩
  calc (edges 2 (edges buffer.length s)).inputs = (edges buffer.length s).inputs.tail.tail := rfl
    _ = rest := by rw [hinputs]; rfl

/-! ### Runs under a host that never resets (70_reset_and_hazards.md R218, R223) -/

theorem hostEdges_agrees (h : u.Agrees s) (host : Nat → Pins) (k : Nat) : u.Agrees (hostEdges host k s) := by
  induction k with
  | zero => exact h
  | succ k ih =>
    refine u.edge_agrees ?_
    rwa [Agrees, State.showing, u.pipe_setInputs]

section
variable {host : Nat → Pins} (hno : NoReset host)
include hno

theorem pipe_hostEdges_succ (k : Nat) :
    u.pipe (hostEdges host (k + 1) s) =
      (u.pipe (hostEdges host k s)).edge u.answer (u.offer (host k)) (u.ready (host k)) := by
  have h := u.pipe_edge ((hostEdges host k s).showing (host k)) (hno k)
  rwa [State.showing_pins, State.showing, u.pipe_setInputs] at h

theorem hostEdges_taken_prefix {j k : Nat} (hjk : j ≤ k) :
    (u.pipe (hostEdges host j s)).taken <+: (u.pipe (hostEdges host k s)).taken := by
  induction k, hjk using Nat.le_induction with
  | base => exact List.prefix_rfl
  | succ k _ ih =>
    obtain ⟨new, htaken, -⟩ := Pipe.edge_taken_answers u.answer (u.offer (host k)) (u.pipe (hostEdges host k s))
      (u.ready (host k))
    rw [u.pipe_hostEdges_succ hno, htaken]
    exact ih.trans (List.prefix_append _ new)

/-- R172: while the host takes no result, the one on offer stays and none is given. -/
theorem hostEdges_holds {j k : Nat} (hjk : j ≤ k) {b : β} (h : (u.pipe (hostEdges host j s)).stage2 = some b)
    (hready : ∀ i, j ≤ i → i < k → u.ready (host i) = false) :
    (u.pipe (hostEdges host k s)).stage2 = some b ∧
      (u.pipe (hostEdges host k s)).given = (u.pipe (hostEdges host j s)).given := by
  induction k, hjk using Nat.le_induction with
  | base => exact ⟨h, rfl⟩
  | succ k hjk ih =>
    obtain ⟨hstage2, hgiven⟩ := ih fun i hi hik => hready i hi (by omega)
    rw [u.pipe_hostEdges_succ hno, hready k hjk (by omega), ← hgiven]
    exact Pipe.edge_holds _ _ hstage2

/-- R223: a host that never takes a result leaves the one on offer there for ever. -/
theorem hostRun_holds {b : β} (h : (u.pipe s).stage2 = some b) (hready : ∀ k, u.ready (host k) = false) (k : Nat) :
    ∃ t, hostRun host k s = .next t ∧ (u.pipe t).stage2 = (u.pipe s).stage2 ∧ (u.pipe t).given = (u.pipe s).given := by
  obtain ⟨hstage2, hgiven⟩ := u.hostEdges_holds hno (j := 0) k.zero_le h fun i _ _ => hready i
  exact ⟨hostEdges host k s, hostRun_eq_hostEdges s host k, hstage2.trans h.symm, hgiven⟩

variable (hfair : ∀ k, (u.pipe (hostEdges host k s)).stage2.isSome = true → ∃ j, k ≤ j ∧ u.ready (host j) = true)
include hfair

/-- R223: a result on offer is given at the first edge at which the host is ready. -/
theorem hostEdges_gives_stage2 {k : Nat} {b : β} (h : (u.pipe (hostEdges host k s)).stage2 = some b) :
    ∃ j, k ≤ j ∧
      (u.pipe (hostEdges host k s)).given.length < (u.pipe (hostEdges host j s)).given.length := by
  classical
  have hex : ∃ j, k ≤ j ∧ u.ready (host j) = true := hfair k (by rw [h]; rfl)
  obtain ⟨hj, hready⟩ := Nat.find_spec hex
  have hwaits (i : Nat) (hi : k ≤ i) (hlt : i < Nat.find hex) : u.ready (host i) = false :=
    Bool.eq_false_iff.mpr fun hi' => Nat.find_min hex hlt ⟨hi, hi'⟩
  obtain ⟨hstage2, hgiven⟩ := u.hostEdges_holds hno hj h hwaits
  refine ⟨Nat.find hex + 1, by omega, ?_⟩
  rw [u.pipe_hostEdges_succ hno, hready, Pipe.edge_ready, hgiven, hstage2]
  simp

/-- R223: while an answer is in flight, one is given sooner or later; from stage 1 it moves on to stage 2 first. -/
theorem hostEdges_gives {k : Nat}
    (h : (u.pipe (hostEdges host k s)).given.length < (u.pipe (hostEdges host k s)).answers.length) :
    ∃ j, k ≤ j ∧
      (u.pipe (hostEdges host k s)).given.length < (u.pipe (hostEdges host j s)).given.length := by
  cases h2 : (u.pipe (hostEdges host k s)).stage2 with
  | some b => exact u.hostEdges_gives_stage2 hno hfair h2
  | none =>
    cases h1 : (u.pipe (hostEdges host k s)).stage1 with
    | none => simp [Pipe.answers, h1, h2] at h
    | some b =>
      have hnext := u.pipe_hostEdges_succ hno (s := s) k
      rw [Pipe.edge_stage2_empty _ _ h2] at hnext
      obtain ⟨j, hj, hmore⟩ := u.hostEdges_gives_stage2 hno hfair (k := k + 1) (by rw [hnext]; exact h1)
      rw [hnext] at hmore
      exact ⟨j, by omega, hmore⟩

theorem hostEdges_gives_count (h : u.Agrees s) (k n : Nat)
    (hn : n ≤ (u.pipe (hostEdges host k s)).taken.length) :
    ∃ j, k ≤ j ∧ n ≤ (u.pipe (hostEdges host j s)).given.length := by
  induction n with
  | zero => exact ⟨k, le_rfl, Nat.zero_le _⟩
  | succ n ih =>
    obtain ⟨j, hj, hcount⟩ := ih (by omega)
    by_cases hdone : n < (u.pipe (hostEdges host j s)).given.length
    · exact ⟨j, hj, hdone⟩
    have htaken := (u.hostEdges_taken_prefix hno (s := s) hj).length_le
    have hanswers := congrArg List.length (u.hostEdges_agrees h host j)
    rw [List.length_map] at hanswers
    obtain ⟨i, hi, hmore⟩ := u.hostEdges_gives hno hfair (s := s) (k := j) (by omega)
    exact ⟨i, by omega, by omega⟩

/-- R180, R223: under a fair host every beat taken is answered, in order. -/
theorem hostRun_answers_taken (h : u.Agrees s) {k : Nat} {t : State} (hrun : hostRun host k s = .next t) :
    ∃ j v, k ≤ j ∧ hostRun host j s = .next v ∧ (u.pipe t).taken.map u.answer <+: (u.pipe v).given := by
  obtain rfl := hostRun_next_iff.mp hrun
  obtain ⟨j, hj, hcount⟩ := u.hostEdges_gives_count hno hfair h k _ le_rfl
  refine ⟨j, hostEdges host j s, hj, hostRun_eq_hostEdges s host j, ?_⟩
  have hagrees : (u.pipe (hostEdges host j s)).taken.map u.answer = (u.pipe (hostEdges host j s)).answers :=
    u.hostEdges_agrees h host j
  have htaken := (u.hostEdges_taken_prefix hno (s := s) hj).map u.answer
  rw [hagrees] at htaken
  have hgiven : (u.pipe (hostEdges host j s)).given <+: (u.pipe (hostEdges host j s)).answers := by
    rw [Pipe.answers, List.append_assoc]
    exact List.prefix_append _ _
  exact List.prefix_of_prefix_length_le htaken hgiven (by rwa [List.length_map])

end

end PipeUnit

/-! ### DEC as a pipeline (R173, R174) -/

section
variable {r : DecRegs} {ready : Bool}

/-- R174: stage 2 at an edge that finds it free. -/
theorem decNext_stage2_free (h : decS2Free r ready = true) (o : Option DecBeat) :
    (decNext false o ready r).v2 = r.v1 ∧
      (decNext false o ready r).y2 = (if r.v1 then decWord r.a1 r.d1 else r.y2) ∧
      (decNext false o ready r).d2 = (if r.v1 then r.d1 else r.d2) := by
  rw [decNext_free (decS1Free_iff.mpr (.inr (decS2Free_iff.mp h)))]
  simp [h]

/-- R174: stage 2 at an edge that does not. -/
theorem decNext_stage2_full (h : decS2Free r ready = false) (o : Option DecBeat) :
    (decNext false o ready r).v2 = r.v2 ∧ (decNext false o ready r).y2 = r.y2 ∧
      (decNext false o ready r).d2 = r.d2 := by
  cases hfree : decS1Free r ready with
  | true => rw [decNext_free hfree]; simp [h]
  | false =>
    obtain ⟨h1, h2, rfl⟩ := decS1Free_eq_false.mp hfree
    rw [decNext_stalled h1 h2]
    exact ⟨rfl, rfl, rfl⟩

theorem decStreamsNext_stalled {r : DecRegs} (h1 : r.v1 = true) (h2 : r.v2 = true) (o : Option DecBeat)
    (x : DecStreams) : decStreamsNext false o false r x = x := by
  simp [decStreamsNext, decS1Free_eq_false.mpr ⟨h1, h2, rfl⟩]

/-- R173: a stalled DEC waits, whatever is on offer. -/
theorem decEdge_stalled {s : State} (hrst : s.pins.rst = false) (h1 : s.dec.v1 = true) (h2 : s.dec.v2 = true)
    (hready : s.pins.dec.outReady = false) (o : Option DecBeat) : decEdge o s = s := by
  refine State.eq_of_fields ?_ rfl rfl ?_ rfl rfl rfl rfl
  · rw [decEdge_dec, hrst, hready, decNext_stalled h1 h2]
  · rw [decEdge_decStreams, hrst, hready, decStreamsNext_stalled h1 h2]

theorem decOutput_isSome (r : DecRegs) : (decOutput r).isSome = r.v2 := by cases h : r.v2 <;> simp [decOutput, h]

/-- The answer to the beat stage 1 holds. -/
def decStage1 (r : DecRegs) : Option DecResult := if r.v1 then some (decAnswer ⟨r.d1, r.a1⟩) else none

theorem decStage1_decNext (o : Option DecBeat) :
    decStage1 (decNext false o ready r) = if decS1Free r ready then o.map decAnswer else decStage1 r := by
  cases hfree : decS1Free r ready with
  | true => rw [decNext_free hfree]; cases o <;> rfl
  | false =>
    obtain ⟨h1, h2, rfl⟩ := decS1Free_eq_false.mp hfree
    rw [decNext_stalled h1 h2]
    rfl

theorem decOutput_decNext (o : Option DecBeat) :
    decOutput (decNext false o ready r) = if decS2Free r ready then decStage1 r else decOutput r := by
  cases hfree : decS2Free r ready with
  | true =>
    obtain ⟨hv, hy, hd⟩ := decNext_stage2_free hfree o
    rw [decOutput, hv, hy, hd, decStage1]
    cases r.v1 <;> rfl
  | false =>
    obtain ⟨hv, hy, hd⟩ := decNext_stage2_full hfree o
    rw [decOutput, hv, hy, hd]
    rfl

/-- DEC's registers and streams as a pipeline. -/
def decPipe (r : DecRegs) (x : DecStreams) : Pipe DecBeat DecResult where
  stage1 := decStage1 r
  stage2 := decOutput r
  taken := x.taken
  given := x.given

variable {x : DecStreams}

theorem decPipe_stage1_eq_none : (decPipe r x).stage1 = none ↔ r.v1 = false := by simp [decPipe, decStage1]

theorem decPipe_stage2_eq_none : (decPipe r x).stage2 = none ↔ r.v2 = false := by simp [decPipe, decOutput]

theorem decPipe_stage2Free : (decPipe r x).stage2Free ready = decS2Free r ready := by
  cases hv : r.v2 <;> simp [Pipe.stage2Free, decPipe, decOutput, decS2Free, hv]

theorem decPipe_stage1Free : (decPipe r x).stage1Free ready = decS1Free r ready := by
  rw [Pipe.stage1Free, decPipe_stage2Free, decS1Free]
  cases hv : r.v1 <;> simp [decPipe, decStage1, hv]

/-- DEC's edge is the pipeline's. -/
theorem decPipe_next (o : Option DecBeat) :
    decPipe (decNext false o ready r) (decStreamsNext false o ready r x) = (decPipe r x).edge decAnswer o ready := by
  rw [Pipe.edge, decPipe_stage1Free, decPipe_stage2Free]
  exact Pipe.ext (decStage1_decNext o) (decOutput_decNext o) rfl rfl

end

/-- DEC among the pipelines of the block. -/
def decUnit : PipeUnit DecBeat DecResult where
  pipe s := decPipe s.dec s.decStreams
  answer := decAnswer
  offer := Pins.decBeat
  ready p := p.dec.outReady
  pipe_setInputs _ _ := rfl
  pipe_edge_rst s h := by rw [edge_dec, edge_decStreams, h]; rfl
  pipe_edge s h := by rw [edge_dec, edge_decStreams, h, decPipe_next]

theorem decAgrees_iff {s : State} : s.DecAgrees ↔ decUnit.Agrees s := by
  unfold State.DecAgrees PipeUnit.Agrees Pipe.Agrees Pipe.answers
  cases h1 : s.dec.v1 <;> cases h2 : s.dec.v2 <;> simp [decUnit, decPipe, decStage1, decOutput, h1, h2]

/-! ### ENC as a pipeline (R173, R175) -/

section
variable {r : EncRegs} {ready : Bool}

/-- R175: stage 2 at an edge that finds it free. -/
theorem encNext_stage2_free (h : encS2Free r ready = true) (o : Option Half) :
    (encNext false o ready r).v2 = r.v1 ∧
      (encNext false o ready r).b2 = if r.v1 then encCode r.mag1 r.neg1 else r.b2 := by
  rw [encNext_free (encS1Free_iff.mpr (.inr (encS2Free_iff.mp h)))]
  simp [h]

/-- R175: stage 2 at an edge that does not. -/
theorem encNext_stage2_full (h : encS2Free r ready = false) (o : Option Half) :
    (encNext false o ready r).v2 = r.v2 ∧ (encNext false o ready r).b2 = r.b2 := by
  cases hfree : encS1Free r ready with
  | true => rw [encNext_free hfree]; simp [h]
  | false =>
    obtain ⟨h1, h2, rfl⟩ := encS1Free_eq_false.mp hfree
    rw [encNext_stalled h1 h2]
    exact ⟨rfl, rfl⟩

theorem encStreamsNext_stalled {r : EncRegs} (h1 : r.v1 = true) (h2 : r.v2 = true) (o : Option Half)
    (x : EncStreams) : encStreamsNext false o false r x = x := by
  simp [encStreamsNext, encS1Free_eq_false.mpr ⟨h1, h2, rfl⟩]

/-- R173: a stalled ENC waits, whatever is on offer. -/
theorem encEdge_stalled {s : State} (hrst : s.pins.rst = false) (h1 : s.enc.v1 = true) (h2 : s.enc.v2 = true)
    (hready : s.pins.enc.outReady = false) (o : Option Half) : encEdge o s = s := by
  refine State.eq_of_fields rfl ?_ rfl rfl ?_ rfl rfl rfl
  · rw [encEdge_enc, hrst, hready, encNext_stalled h1 h2]
  · rw [encEdge_encStreams, hrst, hready, encStreamsNext_stalled h1 h2]

theorem encOutput_isSome (r : EncRegs) : (encOutput r).isSome = r.v2 := by cases h : r.v2 <;> simp [encOutput, h]

/-- The code of what stage 1 holds. -/
def encStage1 (r : EncRegs) : Option Byte := if r.v1 then some (encCode r.mag1 r.neg1) else none

theorem encStage1_encNext (o : Option Half) :
    encStage1 (encNext false o ready r) = if encS1Free r ready then o.map encAnswer else encStage1 r := by
  cases hfree : encS1Free r ready with
  | true =>
    rw [encNext_free hfree]
    cases o with
    | none => rfl
    | some w => exact congrArg some (encCode_eq_ulawEncode w)
  | false =>
    obtain ⟨h1, h2, rfl⟩ := encS1Free_eq_false.mp hfree
    rw [encNext_stalled h1 h2]
    rfl

theorem encOutput_encNext (o : Option Half) :
    encOutput (encNext false o ready r) = if encS2Free r ready then encStage1 r else encOutput r := by
  cases hfree : encS2Free r ready with
  | true =>
    obtain ⟨hv, hb⟩ := encNext_stage2_free hfree o
    rw [encOutput, hv, hb, encStage1]
    cases r.v1 <;> rfl
  | false =>
    obtain ⟨hv, hb⟩ := encNext_stage2_full hfree o
    rw [encOutput, hv, hb]
    rfl

/-- ENC's registers and streams as a pipeline. -/
def encPipe (r : EncRegs) (x : EncStreams) : Pipe Half Byte where
  stage1 := encStage1 r
  stage2 := encOutput r
  taken := x.taken
  given := x.given

variable {x : EncStreams}

theorem encPipe_stage1_eq_none : (encPipe r x).stage1 = none ↔ r.v1 = false := by simp [encPipe, encStage1]

theorem encPipe_stage2_eq_none : (encPipe r x).stage2 = none ↔ r.v2 = false := by simp [encPipe, encOutput]

theorem encPipe_stage2Free : (encPipe r x).stage2Free ready = encS2Free r ready := by
  cases hv : r.v2 <;> simp [Pipe.stage2Free, encPipe, encOutput, encS2Free, hv]

theorem encPipe_stage1Free : (encPipe r x).stage1Free ready = encS1Free r ready := by
  rw [Pipe.stage1Free, encPipe_stage2Free, encS1Free]
  cases hv : r.v1 <;> simp [encPipe, encStage1, hv]

/-- ENC's edge is the pipeline's. -/
theorem encPipe_next (o : Option Half) :
    encPipe (encNext false o ready r) (encStreamsNext false o ready r x) = (encPipe r x).edge encAnswer o ready := by
  rw [Pipe.edge, encPipe_stage1Free, encPipe_stage2Free]
  exact Pipe.ext (encStage1_encNext o) (encOutput_encNext o) rfl rfl

end

/-- ENC among the pipelines of the block. -/
def encUnit : PipeUnit Half Byte where
  pipe s := encPipe s.enc s.encStreams
  answer := encAnswer
  offer := Pins.encBeat
  ready p := p.enc.outReady
  pipe_setInputs _ _ := rfl
  pipe_edge_rst s h := by rw [edge_enc, edge_encStreams, h]; rfl
  pipe_edge s h := by rw [edge_enc, edge_encStreams, h, encPipe_next]

theorem encAgrees_iff {s : State} : s.EncAgrees ↔ encUnit.Agrees s := by
  unfold State.EncAgrees PipeUnit.Agrees Pipe.Agrees Pipe.answers
  cases h1 : s.enc.v1 <;> cases h2 : s.enc.v2 <;> simp [encUnit, encPipe, encStage1, encOutput, h1, h2]

/-! ### The streams agree with the functions (R180) -/

/-- Settles O19: DEC is a pipeline, and a pipeline keeps the agreement. -/
theorem decStreamAgreementKept : Obligations.DecStreamAgreementKept := by
  intro s t hs hstep
  obtain rfl := step_next_iff.mp hstep
  exact decAgrees_iff.mpr (decUnit.edge_agrees (decAgrees_iff.mp hs))

/-- Settles O31: ENC is a pipeline, and a pipeline keeps the agreement. -/
theorem encStreamAgreementKept : Obligations.EncStreamAgreementKept := by
  intro s t hs hstep
  obtain rfl := step_next_iff.mp hstep
  exact encAgrees_iff.mpr (encUnit.edge_agrees (encAgrees_iff.mp hs))

/-! ### What the pins show -/

theorem Pins.decBeat_of_valid {p : Pins} (h : p.dec.inValid = true) :
    p.decBeat = some ⟨p.dec.inDepth8, p.dec.inData⟩ := if_pos h

theorem Pins.decBeat_of_invalid {p : Pins} (h : p.dec.inValid = false) : p.decBeat = none := by
  simp [Pins.decBeat, h]

theorem Pins.encBeat_of_valid {p : Pins} (h : p.enc.inValid = true) : p.encBeat = some p.enc.inData := if_pos h

theorem Pins.encBeat_of_invalid {p : Pins} (h : p.enc.inValid = false) : p.encBeat = none := by
  simp [Pins.encBeat, h]

/-! ### The registers after an edge (R174, R175) -/

/-- Settles O16: each stage is free and loads what stands before it, or is full and keeps its registers. -/
theorem decEdgeRule : Obligations.DecEdgeRule := by
  intro s hrst
  refine ⟨edge s, step_eq_edge s, ?_⟩
  rw [edge_dec, hrst]
  refine ⟨fun h2 => ?stage2Free, fun h2 => ?stage2Full, fun h1 => ?stage1Free, fun h1 => ?stage1Full⟩
  case stage2Free =>
    obtain ⟨hv, hy, hd⟩ := decNext_stage2_free (decS2Free_iff.mpr h2) s.pins.decBeat
    rw [hv, hy, hd]
    exact ⟨rfl, fun h => by simp [h], fun h => by simp [h]⟩
  case stage2Full =>
    exact decNext_stage2_full (Bool.eq_false_iff.mpr (mt decS2Free_iff.mp h2)) _
  case stage1Free =>
    rw [decNext_free (decS1Free_iff.mpr h1)]
    cases hv : s.pins.dec.inValid with
    | true => simp [Pins.decBeat_of_valid hv]
    | false => simp [Pins.decBeat_of_invalid hv]
  case stage1Full =>
    obtain ⟨hv1, hv2, hready⟩ := decS1Free_eq_false.mp (Bool.eq_false_iff.mpr (mt decS1Free_iff.mp h1))
    rw [hready, decNext_stalled hv1 hv2]
    exact ⟨rfl, rfl, rfl⟩

/-- R122: the thresholds by index. -/
theorem segEnd_getD_toNat : ∀ i < 8, (segEnd.getD i 0).toNat = 2 ^ (i + 8) - 1 := by decide

theorem encCode_of_clamp {mag : Half} (h : segScan mag.toNat segEnd = 8) (neg : Bool) :
    encCode mag neg = 0x7F ^^^ ulawMask neg := by
  rw [encCode, segTree_eq_segScan, h]
  rfl

theorem encCode_of_segment {mag : Half} {seg : Nat} (h : segScan mag.toNat segEnd = seg) (hseg : seg < 8) (neg : Bool) :
    encCode mag neg = ulawAssemble seg ((mag.toNat >>> (seg + 3)) &&& 0x0F) (ulawMask neg) := by
  rw [encCode, segTree_eq_segScan, h]
  exact if_neg (not_le.mpr hseg)

/-- Settles O30: the stages as in O16, and the tree of `enc_code` gives the scan's answer. -/
theorem encEdgeRule : Obligations.EncEdgeRule := by
  refine ⟨fun s hrst => ⟨edge s, step_eq_edge s, ?registers⟩, fun mag neg => ⟨fun hall => ?clamp,
    fun seg hseg hle hleast => ?segment⟩, encCode_eq_ulawEncode⟩
  case registers =>
    rw [edge_enc, hrst]
    refine ⟨fun h2 => ?stage2Free, fun h2 => ?stage2Full, fun h1 => ?stage1Free, fun h1 => ?stage1Full⟩
    case stage2Free =>
      obtain ⟨hv, hb⟩ := encNext_stage2_free (encS2Free_iff.mpr h2) s.pins.encBeat
      rw [hv, hb]
      exact ⟨rfl, fun h => by simp [h], fun h => by simp [h]⟩
    case stage2Full =>
      exact encNext_stage2_full (Bool.eq_false_iff.mpr (mt encS2Free_iff.mp h2)) _
    case stage1Free =>
      rw [encNext_free (encS1Free_iff.mpr h1)]
      cases hv : s.pins.enc.inValid with
      | true => simp [Pins.encBeat_of_valid hv, decide_toInt_neg, ofNat_biasedMag]
      | false => simp [Pins.encBeat_of_invalid hv]
    case stage1Full =>
      obtain ⟨hv1, hv2, hready⟩ := encS1Free_eq_false.mp (Bool.eq_false_iff.mpr (mt encS1Free_iff.mp h1))
      rw [hready, encNext_stalled hv1 hv2]
      exact ⟨rfl, rfl, rfl⟩
  case clamp =>
    have hlast := hall 7 (by decide)
    rw [segEnd_getD_toNat 7 (by decide)] at hlast
    exact encCode_of_clamp (segScan_eq_eight_iff.mpr (by omega)) neg
  case segment =>
    rw [segEnd_getD_toNat seg hseg] at hle
    refine encCode_of_segment (segScan_eq_of_least hseg hle fun i hi => ?_) hseg neg
    rw [← segEnd_getD_toNat i (by omega)]
    exact hleast i hi

/-! ### Draining and progress (R180, 70_reset_and_hazards.md R218, R223) -/

/-- Settles O20: the three runs of `PipeUnit`, read on DEC. -/
theorem decPipelineDrains : Obligations.DecPipelineDrains := by
  refine ⟨fun s p q rest hs hin hp hpv hpr hq hqv hqr => ?drain, fun s host hs hno hfair k t hrun => ?fair,
    fun s host hno hready hv2 k => ?never⟩
  case drain =>
    have hend := decUnit.edges_drain hin ⟨hp, Pins.decBeat_of_invalid hpv, hpr⟩ ⟨hq, Pins.decBeat_of_invalid hqv, hqr⟩
    obtain ⟨h1, h2, htaken, hgiven⟩ := Pipe.ext_iff.mp hend
    exact ⟨edges 2 s, runEdges_eq_edges s 2, decPipe_stage1_eq_none.mp h1, decPipe_stage2_eq_none.mp h2, htaken,
      hgiven.trans (decAgrees_iff.mp hs).symm⟩
  case fair =>
    exact decUnit.hostRun_answers_taken hno (fun k => hfair k _ (hostRun_eq_hostEdges s host k))
      (decAgrees_iff.mp hs) hrun
  case never =>
    exact decUnit.hostRun_holds hno (if_pos hv2) hready k

/-- Settles O32: the three runs of `PipeUnit`, read on ENC. -/
theorem encPipelineDrains : Obligations.EncPipelineDrains := by
  refine ⟨fun s p q rest hs hin hp hpv hpr hq hqv hqr => ?drain, fun s host hs hno hfair k t hrun => ?fair,
    fun s host hno hready hv2 k => ?never⟩
  case drain =>
    have hend := encUnit.edges_drain hin ⟨hp, Pins.encBeat_of_invalid hpv, hpr⟩ ⟨hq, Pins.encBeat_of_invalid hqv, hqr⟩
    obtain ⟨h1, h2, htaken, hgiven⟩ := Pipe.ext_iff.mp hend
    exact ⟨edges 2 s, runEdges_eq_edges s 2, encPipe_stage1_eq_none.mp h1, encPipe_stage2_eq_none.mp h2, htaken,
      hgiven.trans (encAgrees_iff.mp hs).symm⟩
  case fair =>
    exact encUnit.hostRun_answers_taken hno (fun k => hfair k _ (hostRun_eq_hostEdges s host k))
      (encAgrees_iff.mp hs) hrun
  case never =>
    exact encUnit.hostRun_holds hno (if_pos hv2) hready k

/-! ### Buffers (R170, R180) -/

/-- Settles O21: each offered beat is `beat` of its pins, and DEC starts empty. -/
theorem decBufferAnswered : Obligations.DecBufferAnswered := by
  intro s buffer p q rest hv1 hv2 hin hbuffer hp hpv hpr hq hqv hqr
  obtain ⟨hinputs, h1, h2, hgiven⟩ := decUnit.edges_buffer_drain (fun b => ⟨b.dec.inDepth8, b.dec.inData⟩) buffer
    (decPipe_stage1_eq_none.mpr hv1) (decPipe_stage2_eq_none.mpr hv2) hin
    (fun b hb => (hbuffer b hb).imp_right (.imp_left Pins.decBeat_of_valid))
    ⟨hp, Pins.decBeat_of_invalid hpv, hpr⟩ ⟨hq, Pins.decBeat_of_invalid hqv, hqr⟩
  exact ⟨_, runEdges_eq_edges s _, hinputs, decPipe_stage1_eq_none.mp h1, decPipe_stage2_eq_none.mp h2, hgiven⟩

/-- Settles O33: each offered sample is read off its pins, and ENC starts empty. -/
theorem encBufferAnswered : Obligations.EncBufferAnswered := by
  intro s buffer p q rest hv1 hv2 hin hbuffer hp hpv hpr hq hqv hqr
  obtain ⟨hinputs, h1, h2, hgiven⟩ := encUnit.edges_buffer_drain (fun b => b.enc.inData) buffer
    (encPipe_stage1_eq_none.mpr hv1) (encPipe_stage2_eq_none.mpr hv2) hin
    (fun b hb => (hbuffer b hb).imp_right (.imp_left Pins.encBeat_of_valid))
    ⟨hp, Pins.encBeat_of_invalid hpv, hpr⟩ ⟨hq, Pins.encBeat_of_invalid hqv, hqr⟩
  exact ⟨_, runEdges_eq_edges s _, hinputs, encPipe_stage1_eq_none.mp h1, encPipe_stage2_eq_none.mp h2, hgiven⟩

/-! ### When a beat fires and what it transfers (R171) -/

theorem State.fires_iff {s : State} {p : Port} :
    s.fires p = true ↔ s.pins.rst = false ∧ s.validOf p = true ∧ s.readyOf p = true := by
  simp [State.fires, and_assoc]

/-- R171: at an edge that is no reset edge a beat on offer does not fire only because the other side is not ready. -/
theorem State.not_ready_of_not_fires {s : State} {p : Port} (hrst : s.pins.rst = false) (hvalid : s.validOf p = true)
    (h : s.fires p = false) : s.readyOf p = false :=
  Bool.eq_false_iff.mpr fun hready => Bool.eq_false_iff.mp h (State.fires_iff.mpr ⟨hrst, hvalid, hready⟩)

theorem State.fires_eq {s : State} (hrst : s.pins.rst = false) (p : Port) :
    s.fires p = (s.validOf p && s.readyOf p) := by
  simp [State.fires, hrst]

/-- A stream records the beat on offer, if there is one, at an edge at which its port is ready. -/
theorem record_eq {α : Type} (x : List α) (o : Option α) (ready : Bool) :
    (if ready then x ++ o.toList else x) = x ++ if o.isSome && ready then o.toList else [] := by
  cases o <;> cases ready <;> simp

/-- The same, for a port whose `valid` and data are two signals. -/
theorem record_signals_eq {α : Type} (x : List α) (valid : Bool) (b : α) (ready : Bool) :
    (if ready then x ++ (if valid then some b else none).toList else x) = x ++ if valid && ready then [b] else [] := by
  cases valid <;> cases ready <;> simp

/-- The same, for a port whose `valid` and `ready` are one condition. -/
theorem record_fired_eq {α : Type} (x : List α) (b : α) (fires : Bool) :
    (if fires then x ++ [b] else x) = x ++ if fires then [b] else [] := by
  cases fires <;> simp

/-- Settles O59: each stream records as R171 says, and a reset edge begins the streams anew. -/
theorem beatsFire : Obligations.BeatsFire := by
  refine ⟨fun s p => State.fires_iff, fun s t hrst hstep => ?_, fun s t hrst hstep => ?_⟩
  · obtain rfl := step_next_iff.mp hstep
    rw [edge_decStreams, edge_encStreams, edge_wavStreams, hrst]
    exact ⟨rfl, rfl, rfl⟩
  · obtain rfl := step_next_iff.mp hstep
    rw [edge_decStreams, edge_encStreams, edge_wavStreams, hrst]
    simp only [State.fires_eq hrst]
    refine ⟨record_signals_eq .., ?decOut, record_signals_eq .., ?encOut, record_signals_eq .., record_fired_eq ..,
      record_eq ..⟩
    case decOut =>
      rw [State.validOf, decOutput_isSome]
      exact record_signals_eq ..
    case encOut =>
      rw [State.validOf, encOutput_isSome]
      exact record_signals_eq ..

/-! ### An output beat stays on offer until it fires (R172) -/

theorem PipeUnit.edge_holds {α β : Type} (u : PipeUnit α β) {s : State} {b : β} (hrst : s.pins.rst = false)
    (hready : u.ready s.pins = false) (h : (u.pipe s).stage2 = some b) : (u.pipe (edge s)).stage2 = some b := by
  rw [u.pipe_edge s hrst, hready]
  exact (Pipe.edge_holds _ _ h).1

/-- R150: the payload port shows through in PAYLOAD alone. -/
theorem wavOutput_congr {r : WavRegs} {v v' : Bool} {d d' : Byte} (h : r.state = .payload → v' = v ∧ d' = d) :
    wavOutput v' d' r = wavOutput v d r := by
  cases hstate : r.state with
  | payload =>
    obtain ⟨rfl, rfl⟩ := h hstate
    rfl
  | idle | header | fault => simp [wavOutput, hstate]

theorem wavOutput_idle {r : WavRegs} (h : r.state = .idle) (v : Bool) (d : Byte) : wavOutput v d r = none := by
  simp [wavOutput, h]

/-- Settles O60: without a beat that fires, stage 2 of DEC and of ENC holds and WAV waits. -/
theorem outputsSteady : Obligations.OutputsSteady := by
  intro s t hrst hstep
  obtain rfl := step_next_iff.mp hstep
  refine ⟨fun b hout hfire => ?dec, fun b hout hfire => ?enc, fun b hout hfire hsteady => ?wav⟩
  case dec =>
    have hready : s.pins.dec.outReady = false :=
      State.not_ready_of_not_fires (p := .decOut) hrst (Option.isSome_of_eq_some hout) hfire
    exact decUnit.edge_holds hrst hready hout
  case enc =>
    have hready : s.pins.enc.outReady = false :=
      State.not_ready_of_not_fires (p := .encOut) hrst (Option.isSome_of_eq_some hout) hfire
    exact encUnit.edge_holds hrst hready hout
  case wav =>
    have hbusy : s.wav.state ≠ .idle := fun h => by simp [wavOutput_idle h] at hout
    rw [(edge_wav_waits hrst hbusy hfire).1, wavOutput_congr hsteady, hout]

/-! ### The wires of the pipelines, and the stall (R173) -/

/-- Settles O17: a stalled unit's edge changes nothing. -/
theorem stalledPipelinesWait : Obligations.StalledPipelinesWait := by
  refine ⟨fun s u hrst h1 h2 hready => ⟨?_, ?_⟩, fun s w hrst h1 h2 hready => ?_⟩
  · rw [exec_dec16, decEdge_stalled hrst h1 h2 hready]
  · rw [exec_dec8, decEdge_stalled hrst h1 h2 hready]
  · rw [exec_enc, encEdge_stalled hrst h1 h2 hready]

/-- Settles O18: the wires are read off the valid bits. -/
theorem pipelineWires : Obligations.PipelineWires := fun _ =>
  ⟨decS2Free_iff, decS1Free_iff.trans (or_congr_right decS2Free_iff.symm), rfl, decS1Free_eq_false, decOutput_isSome _,
    fun h => if_pos h, encS2Free_iff, encS1Free_iff.trans (or_congr_right encS2Free_iff.symm), rfl, encS1Free_eq_false,
    encOutput_isSome _, fun h => if_pos h⟩

end Sys2Proof.Machine

namespace Sys2Proof.Machine

/-! ### Every transition of `wav_state` (44_arithmetic_laws_and_absent_families.md R232) -/

/-- R210: the first row of the table. -/
theorem edge_wavState_of_rst {s : State} (hrst : s.pins.rst = true) : (edge s).wav.state = .idle := by
  rw [edge_wav, hrst, wavNext_rst]
  rfl

section
variable {s : State} (hrst : s.pins.rst = false)
include hrst

/-- R151: a command leaves IDLE, to HEADER if its length is legal and to FAULT if not. -/
theorem edge_wavState_of_idle (h : s.wav.state = .idle) :
    (edge s).wav.state =
      if s.pins.wav.cmdValid = false then .idle
      else if s.pins.wav.cmdLen.toNat ≤ 0xFFFFFFD3 then .header else .fault := by
  rw [edge_wav_idle hrst h, Pins.wrapCmd]
  cases s.pins.wav.cmdValid with
  | false => exact h
  | true =>
    simp only [if_true, wavIdleEdge_some, Config.lenMax, gt_iff_lt, ← Nat.not_le, ite_not, Bool.true_eq_false, if_false]

/-- R152: HEADER is left with the last header byte, to PAYLOAD if payload follows. -/
theorem edge_wavState_of_header (h : s.wav.state = .header) :
    (edge s).wav.state =
      if s.pins.wav.outReady = false ∨ s.wav.idx.toNat < 43 then .header
      else if s.wav.rem.toNat = 0 then .idle else .payload := by
  cases hready : s.pins.wav.outReady with
  | false =>
    have hfire : s.fires .wavOut = false := (fires_wavOut_header hrst h).trans hready
    rw [(edge_wav_waits hrst (by simp [h]) hfire).1, h, if_pos (.inl rfl)]
  | true => simp only [(edge_wav_header hrst h hready).1, Bool.true_eq_false, false_or]

/-- R153: PAYLOAD is left with the last payload byte. -/
theorem edge_wavState_of_payload (h : s.wav.state = .payload) :
    (edge s).wav.state =
      if (s.pins.wav.inValid = true ∧ s.pins.wav.outReady = true) ∧ s.wav.rem.toNat = 1 then .idle else .payload := by
  by_cases hpass : s.pins.wav.inValid = true ∧ s.pins.wav.outReady = true
  · obtain ⟨hvalid, hready⟩ := hpass
    simp only [(edge_wav_payload hrst h hvalid hready).1, hvalid, hready, and_self, true_and]
  · have hfire : s.fires .wavOut = false := by
      rw [fires_wavOut_payload hrst h, Bool.eq_false_iff, ne_eq, Bool.and_eq_true]
      exact hpass
    rw [(edge_wav_waits hrst (by simp [h]) hfire).1, h, if_neg fun hlast => hpass hlast.1]

/-- R154: without a reset FAULT is not left. -/
theorem edge_wavState_of_fault (h : s.wav.state = .fault) : (edge s).wav.state = .fault := by
  rw [edge_wav, hrst, wavNext_fault h, h]

end

/-- Settles O43: a step answers `edge`, and the table's rows are the reset edge and the four states. -/
theorem sequencerTransitions : Obligations.SequencerTransitions := by
  intro s t hstep
  obtain rfl := step_next_iff.mp hstep
  cases hrst : s.pins.rst with
  | true => exact edge_wavState_of_rst hrst
  | false =>
    cases h : s.wav.state with
    | idle => exact edge_wavState_of_idle hrst h
    | header => exact edge_wavState_of_header hrst h
    | payload => exact edge_wavState_of_payload hrst h
    | fault => exact edge_wavState_of_fault hrst h

end Sys2Proof.Machine

namespace Sys2Proof.Machine

/-! ### The length overflow (60_exceptions.md R190, R194, R195) -/

/-- R190: the fault a state stands in is read off `wav_state`. -/
theorem State.faultOf_eq_some_iff {s : State} : s.faultOf = some .wavLengthOverflow ↔ s.wav.state = .fault := by
  simp [State.faultOf, State.wavErr]

/-- R151: in IDLE the command on offer is latched, into HEADER or into FAULT by its length. -/
theorem wavEdge_wav_of_idle {s : State} (c : WrapCmd) (hrst : s.pins.rst = false) (h : s.wav.state = .idle) :
    (wavEdge (some c) s).wav =
      { state := if c.len.toNat > 0xFFFFFFD3 then .fault else .header
        idx := 0, rem := c.len, rate := c.rate, ch := c.channels, bits := c.bits, le := c.le } := by
  rw [wavEdge_wav, hrst, wavNext_idle h, wavIdleEdge_some]

/-- R171 in IDLE: the command on offer joins its stream, and no byte passes. -/
theorem wavEdge_wavStreams_of_idle {s : State} (c : WrapCmd) (hrst : s.pins.rst = false) (h : s.wav.state = .idle) :
    (wavEdge (some c) s).wavStreams = { s.wavStreams with cmds := s.wavStreams.cmds ++ [c] } := by
  rw [wavEdge_wavStreams, hrst, wavStreamsNext_idle h, Option.toList_some]

/-- R190: the fault is raised exactly when the length overflows. -/
theorem wavEdge_faultOf_iff {s : State} (c : WrapCmd) (hrst : s.pins.rst = false) (h : s.wav.state = .idle) :
    (wavEdge (some c) s).faultOf = some .wavLengthOverflow ↔ c.len.toNat > 0xFFFFFFD3 := by
  rw [State.faultOf_eq_some_iff, wavEdge_wav_of_idle c hrst h]
  simp

/-- R190: FAULT is entered from IDLE alone, at an edge at which a command whose length overflows fires. -/
theorem edge_enters_fault {s : State} (ht : (edge s).wav.state = .fault) (hs : s.wav.state ≠ .fault) :
    s.fires .wavCmd = true ∧ s.pins.wav.cmdLen.toNat > 0xFFFFFFD3 := by
  cases hrst : s.pins.rst with
  | true => rw [edge_wavState_of_rst hrst] at ht; cases ht
  | false =>
    cases h : s.wav.state with
    | idle =>
      rw [edge_wavState_of_idle hrst h] at ht
      by_cases hvalid : s.pins.wav.cmdValid = false
      · rw [if_pos hvalid] at ht; cases ht
      by_cases hlen : s.pins.wav.cmdLen.toNat ≤ 0xFFFFFFD3
      · rw [if_neg hvalid, if_pos hlen] at ht; cases ht
      exact ⟨State.fires_iff.mpr ⟨hrst, Bool.eq_true_of_not_eq_false hvalid, decide_eq_true h⟩,
        Nat.lt_of_not_le hlen⟩
    | header =>
      rw [edge_wavState_of_header hrst h] at ht
      split at ht
      · cases ht
      · split at ht <;> cases ht
    | payload =>
      rw [edge_wavState_of_payload hrst h] at ht
      split at ht <;> cases ht
    | fault => exact absurd h hs

/-- R195: without a reset edge FAULT keeps the latches and the streams of WAV, whatever the host drives. -/
theorem edges_fault {s : State} (h : s.wav.state = .fault) {k : Nat} (hk : k ≤ s.inputs.length)
    (hrst : ∀ p ∈ s.inputs, p.rst = false) :
    (edges k s).wav = s.wav ∧ (edges k s).wavStreams = s.wavStreams := by
  induction k generalizing s with
  | zero => exact ⟨rfl, rfl⟩
  | succ k ih =>
    cases hin : s.inputs with
    | nil => rw [hin] at hk; cases hk
    | cons p rest =>
      rw [hin] at hk hrst
      obtain ⟨hp, hrest⟩ := List.forall_mem_cons.mp hrst
      have hpins : s.pins.rst = false := by rw [State.pins_of_inputs_cons hin, hp]
      have hleft : (edge s).inputs = rest := by rw [edge_inputs, hin]; rfl
      have hregs : (edge s).wav = s.wav := by rw [edge_wav, hpins, wavNext_fault h]
      have hstreams : (edge s).wavStreams = s.wavStreams := by rw [edge_wavStreams, hpins, wavStreamsNext_fault h]
      have hlater := ih (s := edge s) (by rw [hregs, h]) (by rw [hleft]; exact Nat.le_of_succ_le_succ hk)
        (by rwa [hleft])
      rwa [hregs, hstreams] at hlater

/-- R150: what FAULT shows. -/
theorem shown_of_fault {s : State} (h : s.wav.state = .fault) :
    s.wavErr = true ∧ s.readyOf .wavCmd = false ∧ s.readyOf .wavIn = false ∧ s.validOf .wavOut = false := by
  obtain ⟨-, -, -, hfault, hvalid⟩ := wavOutputs s
  obtain ⟨hcmd, hin, hout, herr⟩ := hfault h
  exact ⟨herr, hcmd, hin, hvalid.trans (by rw [hout]; rfl)⟩

/-- R190: at any edge after its entry, and before a reset edge, FAULT holds and shows itself. -/
theorem runEdges_fault {t : State} (h : t.wav.state = .fault) {k : Nat} {inputs : List Pins} (hk : k ≤ inputs.length)
    (hrst : ∀ p ∈ inputs, p.rst = false) :
    ∃ u, runEdges k (t.setInputs inputs) = .next u ∧ u.wav = t.wav ∧ u.wavStreams = t.wavStreams ∧
      u.wavErr = true ∧ u.readyOf .wavCmd = false ∧ u.readyOf .wavIn = false ∧ u.validOf .wavOut = false := by
  obtain ⟨hregs, hstreams⟩ := edges_fault (s := t.setInputs inputs) h hk hrst
  exact ⟨_, runEdges_eq_edges .., hregs, hstreams, shown_of_fault (by rw [hregs]; exact h)⟩

/-- Settles O36: WRAP answers the edge of IDLE, which latches the command into FAULT, and FAULT keeps it. -/
theorem wrapLengthOverflow : Obligations.WrapLengthOverflow := by
  refine ⟨rfl, fun len => by omega, fun s t le bits channels rate len hrst hidle ht => ?raised,
    fun s t hstep ht hs => ?entered, fun s le bits channels rate len hrst hidle hlen => ?sticky⟩
  case raised =>
    rw [exec_wrap] at ht
    cases ht
    exact wavEdge_faultOf_iff _ hrst hidle
  case entered =>
    obtain rfl := step_next_iff.mp hstep
    exact edge_enters_fault ht hs
  case sticky =>
    have hregs := wavEdge_wav_of_idle ⟨le, bits, channels, rate, len⟩ hrst hidle
    have hstreams := wavEdge_wavStreams_of_idle ⟨le, bits, channels, rate, len⟩ hrst hidle
    rw [if_pos hlen] at hregs
    have hfault := congrArg WavRegs.state hregs
    exact ⟨_, exec_wrap .., hregs, rfl, rfl, by rw [hstreams], by rw [hstreams], State.faultOf_eq_some_iff.mpr hfault,
      fun _ _ => runEdges_fault hfault⟩

end Sys2Proof.Machine

namespace Sys2Proof.Machine

/-! ### The reset edge (70_reset_and_hazards.md R210) -/

/-- R210: the four valid bits become 0 and the sequencer IDLE, and no other register is written. -/
theorem edge_registers_of_rst {s : State} (hrst : s.pins.rst = true) :
    (edge s).dec = s.dec.clear ∧ (edge s).enc = s.enc.clear ∧ (edge s).wav = s.wav.clear := by
  rw [edge_dec, edge_enc, edge_wav, hrst]
  exact ⟨decNext_rst, encNext_rst, wavNext_rst⟩

/-- R171: no beat fires at a reset edge. -/
theorem State.fires_of_rst {s : State} (hrst : s.pins.rst = true) (p : Port) : s.fires p = false := by
  simp [State.fires, hrst]

/-- Settles O50: each unit's registers are cleared, and what is cleared stays so when it is cleared again. -/
theorem resetEdge : Obligations.ResetEdge := by
  intro s hrst
  obtain ⟨hdec, henc, hwav⟩ := edge_registers_of_rst hrst
  refine ⟨State.fires_of_rst hrst, edge s, step_eq_edge s, hdec, henc, hwav, fun hagain => ?again⟩
  obtain ⟨hdec', henc', hwav'⟩ := edge_registers_of_rst hagain
  refine ⟨edge (edge s), step_eq_edge _, ?_, ?_, ?_⟩
  · rw [hdec', hdec]; rfl
  · rw [henc', henc]; rfl
  · rw [hwav', hwav]; rfl

/-! ### A quiescent block to which nothing is offered (70_reset_and_hazards.md R221, 60_exceptions.md R202) -/

/-- R174, R210: an empty DEC with no beat on offer keeps its registers, at a reset edge too. -/
theorem decNext_empty {r : DecRegs} (h1 : r.v1 = false) (h2 : r.v2 = false) (rst ready : Bool) :
    decNext rst none ready r = r := by
  obtain ⟨v1, a1, d1, v2, y2, d2⟩ := r
  subst h1 h2
  cases rst with
  | true => rfl
  | false => exact (decNext_free rfl).trans (by simp)

/-- R175, R210: an empty ENC with no sample on offer keeps its registers, at a reset edge too. -/
theorem encNext_empty {r : EncRegs} (h1 : r.v1 = false) (h2 : r.v2 = false) (rst ready : Bool) :
    encNext rst none ready r = r := by
  obtain ⟨v1, neg1, mag1, v2, b2⟩ := r
  subst h1 h2
  cases rst with
  | true => rfl
  | false => exact (encNext_free rfl).trans (by simp)

/-- R151, R210: WAV in IDLE with no command on offer keeps its registers, at a reset edge too. -/
theorem wavNext_idle_none {r : WavRegs} (h : r.state = .idle) (rst inValid ready : Bool) :
    wavNext rst none inValid ready r = r := by
  cases rst with
  | true => rw [wavNext_rst, WavRegs.clear, ← h]
  | false => exact wavNext_idle h

theorem Pins.wrapCmd_of_invalid {p : Pins} (h : p.wav.cmdValid = false) : p.wrapCmd = none := by
  simp [Pins.wrapCmd, h]

section
variable {s : State} (hq : s.Quiescent)
include hq

/-- R221: no output is valid. -/
theorem State.Quiescent.shows_nothing :
    s.shown.decOut = none ∧ s.shown.encOut = none ∧ s.shown.wavOut = none := by
  obtain ⟨-, hd2, -, he2, hw⟩ := hq
  exact ⟨decPipe_stage2_eq_none (x := s.decStreams).mpr hd2, encPipe_stage2_eq_none (x := s.encStreams).mpr he2,
    wavOutput_idle hw _ _⟩

variable (hp : s.pins.Silent)
include hp

/-- R171: the host offers nothing and neither does the block, so no port has a beat. -/
theorem State.Quiescent.fires_eq_false (p : Port) : s.fires p = false := by
  obtain ⟨hdecOut, hencOut, hwavOut⟩ := hq.shows_nothing
  obtain ⟨hdecIn, hencIn, hcmd, hwavIn⟩ := hp
  have hvalid : s.validOf p = false := by
    cases p with
    | decIn => exact hdecIn
    | encIn => exact hencIn
    | wavCmd => exact hcmd
    | wavIn => exact hwavIn
    | decOut => exact congrArg Option.isSome hdecOut
    | encOut => exact congrArg Option.isSome hencOut
    | wavOut => exact congrArg Option.isSome hwavOut
  simp [State.fires, hvalid]

/-- R202, R221: an edge writes no register, whatever `rst` shows. -/
theorem State.Quiescent.edge_registers : (edge s).dec = s.dec ∧ (edge s).enc = s.enc ∧ (edge s).wav = s.wav := by
  obtain ⟨hd1, hd2, he1, he2, hw⟩ := hq
  obtain ⟨hdecIn, hencIn, hcmd, -⟩ := hp
  rw [edge_dec, edge_enc, edge_wav, Pins.decBeat_of_invalid hdecIn, Pins.encBeat_of_invalid hencIn,
    Pins.wrapCmd_of_invalid hcmd]
  exact ⟨decNext_empty hd1 hd2 _ _, encNext_empty he1 he2 _ _, wavNext_idle_none hw _ _ _⟩

theorem State.Quiescent.edge : (edge s).Quiescent := by
  obtain ⟨hdec, henc, hwav⟩ := hq.edge_registers hp
  rwa [State.Quiescent, hdec, henc, hwav]

end

/-- R171: a stream records the beats that fire, so without one it stays as it is. -/
theorem edge_streams_of_none_fires {s : State} (hrst : s.pins.rst = false) (h : ∀ p, s.fires p = false) :
    (edge s).decStreams = s.decStreams ∧ (edge s).encStreams = s.encStreams ∧ (edge s).wavStreams = s.wavStreams := by
  obtain ⟨-, -, hrecord⟩ := beatsFire
  obtain ⟨hdecIn, hdecOut, hencIn, hencOut, hcmds, hpayload, hout⟩ := hrecord s _ hrst (step_eq_edge s)
  simp only [h, Bool.false_eq_true, if_false, List.append_nil] at hdecIn hdecOut hencIn hencOut hcmds hpayload hout
  have hwav := congr (congrArg₂ WavStreams.mk hcmds hpayload) hout
  exact ⟨congrArg₂ DecStreams.mk hdecIn hdecOut, congrArg₂ EncStreams.mk hencIn hencOut, hwav⟩

/-- R221: the host's coming inputs are among those it had still to show. -/
theorem State.EndedWell.edge {s : State} (h : s.EndedWell) (hp : s.pins.Silent) : (edge s).EndedWell := by
  obtain ⟨hq, hin, hheld⟩ := h
  exact ⟨hq.edge hp, fun p hmem => hin p (List.mem_of_mem_tail hmem), hheld⟩

/-! ### The pipelines drain once nothing more is offered (R223) -/

namespace Pipe
variable {α β : Type} (f : α → β) (p : Pipe α β)

/-- With no beat on offer none is taken, and those in flight move on. -/
theorem answers_edge_none (ready : Bool) : (p.edge f none ready).answers = p.answers := by
  obtain ⟨new, htaken, hanswers⟩ := p.edge_taken_answers f none ready
  obtain rfl : new = [] := by simpa [edge] using htaken
  simpa using hanswers

variable {p}

theorem edge_empty (h1 : p.stage1 = none) (h2 : p.stage2 = none) (ready : Bool) :
    (p.edge f none ready).stage1 = none ∧ (p.edge f none ready).stage2 = none := by
  rw [edge_stage2_empty f none h2]
  exact ⟨rfl, h1⟩

/-- Both stages are empty once every answer is given. -/
theorem stages_empty (h : p.answers.length ≤ p.given.length) : p.stage1 = none ∧ p.stage2 = none := by
  have hlength : p.answers.length = p.given.length + p.stage2.toList.length + p.stage1.toList.length := by
    simp only [answers, List.length_append]
  constructor <;> rw [← Option.toList_eq_nil_iff, ← List.length_eq_zero_iff] <;> omega

end Pipe

namespace PipeUnit
variable {α β : Type} (u : PipeUnit α β) {s : State} {host : Nat → Pins} (hno : NoReset host)
  {n : Nat} (hquiet : ∀ k, n ≤ k → u.offer (host k) = none)
include hno hquiet

theorem hostEdges_answers_quiet {k : Nat} (hk : n ≤ k) :
    (u.pipe (hostEdges host k s)).answers = (u.pipe (hostEdges host n s)).answers := by
  induction k, hk using Nat.le_induction with
  | base => rfl
  | succ k hk ih => rw [u.pipe_hostEdges_succ hno, hquiet k hk, Pipe.answers_edge_none, ih]

theorem hostEdges_stays_empty {j k : Nat} (hj : n ≤ j) (hjk : j ≤ k)
    (h : (u.pipe (hostEdges host j s)).stage1 = none ∧ (u.pipe (hostEdges host j s)).stage2 = none) :
    (u.pipe (hostEdges host k s)).stage1 = none ∧ (u.pipe (hostEdges host k s)).stage2 = none := by
  induction k, hjk using Nat.le_induction with
  | base => exact h
  | succ k hjk ih =>
    obtain ⟨h1, h2⟩ := ih
    rw [u.pipe_hostEdges_succ hno, hquiet k (hj.trans hjk)]
    exact Pipe.edge_empty _ h1 h2 _

variable (hfair : ∀ k, (u.pipe (hostEdges host k s)).stage2.isSome = true → ∃ j, k ≤ j ∧ u.ready (host j) = true)
include hfair

/-- R223: every answer in flight is given; the ones still to give grow fewer, since no new one joins them. -/
theorem hostEdges_reaches_empty {k : Nat} (hk : n ≤ k) :
    ∃ j, n ≤ j ∧ (u.pipe (hostEdges host j s)).stage1 = none ∧ (u.pipe (hostEdges host j s)).stage2 = none := by
  induction howed : (u.pipe (hostEdges host n s)).answers.length - (u.pipe (hostEdges host k s)).given.length
    using Nat.strong_induction_on generalizing k with
  | _ m ih =>
    have hanswers := congrArg List.length (u.hostEdges_answers_quiet hno hquiet (s := s) hk)
    by_cases hdone : (u.pipe (hostEdges host k s)).answers.length ≤ (u.pipe (hostEdges host k s)).given.length
    · exact ⟨k, hk, Pipe.stages_empty hdone⟩
    obtain ⟨i, hi, hmore⟩ := u.hostEdges_gives hno hfair (not_le.mp hdone)
    exact ih _ (by omega) (hk.trans hi) rfl

/-- R223: under a fair host that offers no more, the unit is empty from some edge on. -/
theorem eventually_empty :
    ∀ᶠ k in Filter.atTop,
      (u.pipe (hostEdges host k s)).stage1 = none ∧ (u.pipe (hostEdges host k s)).stage2 = none := by
  obtain ⟨j, hj, hempty⟩ := u.hostEdges_reaches_empty hno hquiet hfair (s := s) le_rfl
  exact Filter.eventually_atTop.mpr ⟨j, fun _ hjk => u.hostEdges_stays_empty hno hquiet hj hjk hempty⟩

end PipeUnit

/-! ### The block becomes quiescent (R221, R223) -/

section
variable {s : State} {host : Nat → Pins} (hno : NoReset host)
include hno

/-- R151: without a command WAV stays in IDLE. -/
theorem hostEdges_stays_idle {j k : Nat} (hquiet : ∀ i, j ≤ i → (host i).wav.cmdValid = false) (hjk : j ≤ k)
    (h : (hostEdges host j s).wav.state = .idle) : (hostEdges host k s).wav.state = .idle := by
  induction k, hjk using Nat.le_induction with
  | base => exact h
  | succ k hjk ih =>
    have hnext := edge_wavState_of_idle (s := (hostEdges host k s).showing (host k)) (hno k) ih
    rwa [State.showing_pins, if_pos (hquiet k hjk)] at hnext

/-- R223: under a fair host that offers no command, WAV is in IDLE from some edge on, unless it is in FAULT. -/
theorem eventually_idle {n : Nat} (hfair : FairHost host s) (hsteady : SteadyPayload host s)
    (hfault : (hostEdges host n s).wav.state ≠ .fault) (hquiet : ∀ k, n ≤ k → (host k).wav.cmdValid = false) :
    ∀ᶠ k in Filter.atTop, (hostEdges host k s).wav.state = .idle := by
  obtain ⟨-, -, hout, hfeeds⟩ := hfair
  obtain ⟨j, hj, hidle⟩ := hostEdges_reaches_idle hno hout hfeeds hsteady hfault
  exact Filter.eventually_atTop.mpr
    ⟨j, fun _ hjk => hostEdges_stays_idle hno (fun i hi => hquiet i (hj.trans hi)) hjk hidle⟩

/-- R223: the three units are empty and idle from some edge on, and so at one edge together. -/
theorem eventually_quiescent {n : Nat} (hfair : FairHost host s) (hsteady : SteadyPayload host s)
    (hfault : (hostEdges host n s).wav.state ≠ .fault)
    (hquiet : ∀ k, n ≤ k → (host k).dec.inValid = false ∧ (host k).enc.inValid = false ∧ (host k).wav.cmdValid = false) :
    ∀ᶠ k in Filter.atTop, (hostEdges host k s).Quiescent := by
  simp only [imp_and, forall_and] at hquiet
  obtain ⟨hdecIn, hencIn, hcmd⟩ := hquiet
  have hwav := eventually_idle hno hfair hsteady hfault hcmd
  obtain ⟨hdecOut, hencOut, -, -⟩ := hfair
  have hdec := decUnit.eventually_empty hno (fun k hk => Pins.decBeat_of_invalid (hdecIn k hk))
    fun k => hdecOut k _ (hostRun_eq_hostEdges s host k)
  have henc := encUnit.eventually_empty hno (fun k hk => Pins.encBeat_of_invalid (hencIn k hk))
    fun k => hencOut k _ (hostRun_eq_hostEdges s host k)
  filter_upwards [hdec, henc, hwav] with k ⟨hd1, hd2⟩ ⟨he1, he2⟩ hw
  exact ⟨decPipe_stage1_eq_none.mp hd1, decPipe_stage2_eq_none.mp hd2, encPipe_stage1_eq_none.mp he1,
    encPipe_stage2_eq_none.mp he2, hw⟩

end

/-- Settles O55: an empty unit keeps its registers, and a fair host empties each unit for good. -/
theorem quiescentBlockHolds : Obligations.QuiescentBlockHolds := by
  refine ⟨fun s hq hp => ?holds, fun s host hno hfair hsteady n t hrun hfault hquiet => ?reached⟩
  case holds =>
    obtain ⟨hdecOut, hencOut, hwavOut⟩ := hq.shows_nothing
    obtain ⟨hdec, henc, hwav⟩ := hq.edge_registers hp
    exact ⟨hdecOut, hencOut, hwavOut, hq.fires_eq_false hp, edge s, step_eq_edge s, hq.edge hp, hdec, henc, hwav,
      fun hrst => edge_streams_of_none_fires hrst (hq.fires_eq_false hp), fun h => h.edge hp⟩
  case reached =>
    obtain rfl := hostRun_next_iff.mp hrun
    have hend := eventually_quiescent hno hfair hsteady hfault hquiet
    obtain ⟨j, hj, hu⟩ := ((Filter.eventually_ge_atTop n).and hend).exists
    exact ⟨j, _, hj, hostRun_eq_hostEdges s host j, hu⟩

end Sys2Proof.Machine
